-- ==== Sys2Proof/Word.lean ====
section
/-! DEFINITION. The two word types of the ETD32 core and the byte layout of a word (spec/00_scope.md R5, R7, R8). -/

namespace Sys2Proof

/-- A register, memory byte, flag-free datum, address or pc: 8 bits (`REG_W`, `ADDR_W` of R5). -/
abbrev Byte := BitVec 8

/-- An instruction word: 32 bits (`ILEN` of R5). -/
abbrev Word := BitVec 32

end Sys2Proof
end

