-- ==== Sys2Proof/Syntax.lean ====
section
/-! DEFINITION. The instructions of the ETD32 core: one constructor of `Instr` per row of spec/opcode_table.json.
A field holds the number or the sign and magnitude its bits stand for (spec/30_encoding.md R71, R75 to R80); the bits
no field covers are kept, since encode and decode are exact inverses (R74). Which values fit is Sys2Proof/WellFormed.lean. -/

namespace Sys2Proof

/-- The four request bits of a word (R71). -/
structure Req where
  c : Bool
  l : Bool
  z : Bool
  g : Bool
  deriving DecidableEq, Repr

/-- No flag requested. -/
def Req.none : Req := ⟨false, false, false, false⟩

/-- A sign-magnitude field (R11). The sign of a zero magnitude is kept as syntax and has no value. -/
structure SignMag where
  neg : Bool
  mag : Nat
  deriving DecidableEq, Repr

/-- `sm_N` of R11: the value a sign-magnitude field stands for. -/
def SignMag.val (v : SignMag) : Int :=
  if v.neg then -(v.mag : Int) else (v.mag : Int)

/-- Rd format (R75): ALU register-register. -/
structure Rd where
  dest : Nat
  x : Nat
  y : Nat
  ignored : Nat
  deriving DecidableEq, Repr

/-- Ri format (R76): ALU register-immediate. -/
structure Ri where
  dest : Nat
  x : Nat
  imm : SignMag
  deriving DecidableEq, Repr

/-- Bo format (R77): memory, base and unsigned offset. -/
structure Bo where
  target : Nat
  base : Nat
  offset : Nat
  deriving DecidableEq, Repr

/-- Bi format (R78): memory, base and index. -/
structure Bi where
  target : Nat
  base : Nat
  index : Nat
  ignored : Nat
  deriving DecidableEq, Repr

/-- J format (R79): relative jump, jump to an immediate, interrupt. -/
structure J where
  val : SignMag
  deriving DecidableEq, Repr

/-- JR format (R80): register-indirect jump. -/
structure JR where
  dest : Nat
  ignored : Nat
  deriving DecidableEq, Repr

/-- The names of the 34 instructions (R86). -/
inductive Mnemonic where
  | shl | shr | and | or | xor | not | add | sub | mul
  | shli | shri | andi | ori | xori | noti | addi | subi | muli
  | ld8 | ld16 | ld32 | st8 | st16 | st32
  | ld8x | ld16x | ld32x | st8x | st16x | st32x
  | jmp | jmpr | jmpi | int
  deriving DecidableEq, Repr

/-- The six loads. -/
def Mnemonic.isLoad (m : Mnemonic) : Bool := [Mnemonic.ld8, .ld16, .ld32, .ld8x, .ld16x, .ld32x].contains m

/-- The six stores. -/
def Mnemonic.isStore (m : Mnemonic) : Bool := [Mnemonic.st8, .st16, .st32, .st8x, .st16x, .st32x].contains m

/-- The 34 instructions (R86), each with its request bits and its operand. -/
inductive Instr where
  | shl (q : Req) (o : Rd)
  | shr (q : Req) (o : Rd)
  | and (q : Req) (o : Rd)
  | or (q : Req) (o : Rd)
  | xor (q : Req) (o : Rd)
  | not (q : Req) (o : Rd)
  | add (q : Req) (o : Rd)
  | sub (q : Req) (o : Rd)
  | mul (q : Req) (o : Rd)
  | shli (q : Req) (o : Ri)
  | shri (q : Req) (o : Ri)
  | andi (q : Req) (o : Ri)
  | ori (q : Req) (o : Ri)
  | xori (q : Req) (o : Ri)
  | noti (q : Req) (o : Ri)
  | addi (q : Req) (o : Ri)
  | subi (q : Req) (o : Ri)
  | muli (q : Req) (o : Ri)
  | ld8 (q : Req) (o : Bo)
  | ld16 (q : Req) (o : Bo)
  | ld32 (q : Req) (o : Bo)
  | st8 (q : Req) (o : Bo)
  | st16 (q : Req) (o : Bo)
  | st32 (q : Req) (o : Bo)
  | ld8x (q : Req) (o : Bi)
  | ld16x (q : Req) (o : Bi)
  | ld32x (q : Req) (o : Bi)
  | st8x (q : Req) (o : Bi)
  | st16x (q : Req) (o : Bi)
  | st32x (q : Req) (o : Bi)
  | jmp (q : Req) (o : J)
  | jmpr (q : Req) (o : JR)
  | jmpi (q : Req) (o : J)
  | int (q : Req) (o : J)
  deriving DecidableEq, Repr

/-- An operand in one of the six formats (R75 to R80). -/
inductive Operand where
  | rd (o : Rd)
  | ri (o : Ri)
  | bo (o : Bo)
  | bi (o : Bi)
  | j (o : J)
  | jr (o : JR)
  deriving DecidableEq, Repr

/-- Which of the 34 instructions it is. -/
def Instr.mnemonic : Instr → Mnemonic
  | .shl _ _ => .shl
  | .shr _ _ => .shr
  | .and _ _ => .and
  | .or _ _ => .or
  | .xor _ _ => .xor
  | .not _ _ => .not
  | .add _ _ => .add
  | .sub _ _ => .sub
  | .mul _ _ => .mul
  | .shli _ _ => .shli
  | .shri _ _ => .shri
  | .andi _ _ => .andi
  | .ori _ _ => .ori
  | .xori _ _ => .xori
  | .noti _ _ => .noti
  | .addi _ _ => .addi
  | .subi _ _ => .subi
  | .muli _ _ => .muli
  | .ld8 _ _ => .ld8
  | .ld16 _ _ => .ld16
  | .ld32 _ _ => .ld32
  | .st8 _ _ => .st8
  | .st16 _ _ => .st16
  | .st32 _ _ => .st32
  | .ld8x _ _ => .ld8x
  | .ld16x _ _ => .ld16x
  | .ld32x _ _ => .ld32x
  | .st8x _ _ => .st8x
  | .st16x _ _ => .st16x
  | .st32x _ _ => .st32x
  | .jmp _ _ => .jmp
  | .jmpr _ _ => .jmpr
  | .jmpi _ _ => .jmpi
  | .int _ _ => .int

/-- The request bits of an instruction. -/
def Instr.req : Instr → Req
  | .shl q _ | .shr q _ | .and q _ | .or q _ | .xor q _ | .not q _ | .add q _ | .sub q _ | .mul q _
  | .shli q _ | .shri q _ | .andi q _ | .ori q _ | .xori q _ | .noti q _ | .addi q _ | .subi q _ | .muli q _
  | .ld8 q _ | .ld16 q _ | .ld32 q _ | .st8 q _ | .st16 q _ | .st32 q _
  | .ld8x q _ | .ld16x q _ | .ld32x q _ | .st8x q _ | .st16x q _ | .st32x q _
  | .jmp q _ | .jmpr q _ | .jmpi q _ | .int q _ => q

/-- The operand of an instruction. -/
def Instr.operand : Instr → Operand
  | .shl _ o | .shr _ o | .and _ o | .or _ o | .xor _ o | .not _ o | .add _ o | .sub _ o | .mul _ o => .rd o
  | .shli _ o | .shri _ o | .andi _ o | .ori _ o | .xori _ o | .noti _ o | .addi _ o | .subi _ o | .muli _ o => .ri o
  | .ld8 _ o | .ld16 _ o | .ld32 _ o | .st8 _ o | .st16 _ o | .st32 _ o => .bo o
  | .ld8x _ o | .ld16x _ o | .ld32x _ o | .st8x _ o | .st16x _ o | .st32x _ o => .bi o
  | .jmp _ o | .jmpi _ o | .int _ o => .j o
  | .jmpr _ o => .jr o

end Sys2Proof
end

