-- ==== Sys2Proof/WellFormed.lean ====
section
/-! DEFINITION. Which instructions have an encoding: every sub-field within its width (spec/30_encoding.md R73: a
register index above 31, an Ri magnitude above 2047, a Bo offset above 4095 and a J magnitude above 2^21-1 are
rejected, never truncated; the bits no field covers are as many as R75, R78 and R80 say). -/

namespace Sys2Proof

/-- A register index fits its five bits (R81). -/
def regOk (r : Nat) : Bool := decide (r < 32)

def Rd.wf (o : Rd) : Bool := regOk o.dest && regOk o.x && regOk o.y && decide (o.ignored < 2 ^ 7)

def Ri.wf (o : Ri) : Bool := regOk o.dest && regOk o.x && decide (o.imm.mag < 2 ^ 11)

def Bo.wf (o : Bo) : Bool := regOk o.target && regOk o.base && decide (o.offset < 2 ^ 12)

def Bi.wf (o : Bi) : Bool := regOk o.target && regOk o.base && regOk o.index && decide (o.ignored < 2 ^ 7)

def J.wf (o : J) : Bool := decide (o.val.mag < 2 ^ 21)

def JR.wf (o : JR) : Bool := regOk o.dest && decide (o.ignored < 2 ^ 17)

def Operand.wf : Operand → Bool
  | .rd o => o.wf
  | .ri o => o.wf
  | .bo o => o.wf
  | .bi o => o.wf
  | .j o => o.wf
  | .jr o => o.wf

/-- Every sub-field of the instruction fits (R73). -/
def Instr.wf (i : Instr) : Bool := i.operand.wf

end Sys2Proof
end

