-- ==== Sys2Proof/Decode.lean ====
section
/-! DEFINITION. Decoding and encoding (spec/30_encoding.md R70 to R89): bytes to word, word to fields (total, R72),
fields to instruction under an opcode map (R86, R106), and the encoders of R73. -/

namespace Sys2Proof

/-! ### Bytes and bits -/

/-- The little-endian word of four bytes, lowest address first (R53, R55). -/
def wordOfBytes (b0 b1 b2 b3 : Byte) : Word :=
  BitVec.ofNat 32 (b0.toNat + 256 * b1.toNat + 65536 * b2.toNat + 16777216 * b3.toNat)

/-- Byte `k` of a word: `w[8k+7 : 8k]` (R54). -/
def byteOfWord (w : Word) (k : Nat) : Byte := BitVec.ofNat 8 (w.toNat / 2 ^ (8 * k))

/-- `n[hi:lo]` of R7. -/
def bits (n hi lo : Nat) : Nat := n / 2 ^ lo % 2 ^ (hi + 1 - lo)

/-- `n[k]` of R7, as a truth value. -/
def bit (n k : Nat) : Bool := n / 2 ^ k % 2 == 1

/-! ### The fields of a word -/

/-- The fields of a word before its opcode is given a meaning (R71, R72). -/
structure Raw where
  req : Req
  opcode : Nat
  operand : Nat
  deriving DecidableEq, Repr

/-- Decode (R72): total on every word. -/
def Raw.ofWord (w : Word) : Raw :=
  let n := w.toNat
  { req := { c := bit n 31, l := bit n 30, z := bit n 29, g := bit n 28 }
    opcode := bits n 27 22
    operand := bits n 21 0 }

/-- The number a word with these fields is (the sum of R73). -/
def Raw.number (r : Raw) : Nat :=
  r.req.c.toNat * 2 ^ 31 + r.req.l.toNat * 2 ^ 30 + r.req.z.toNat * 2 ^ 29 + r.req.g.toNat * 2 ^ 28
    + r.opcode * 2 ^ 22 + r.operand

/-- Encode (R73): rejected when the opcode or the operand exceeds its field, never truncated. -/
def Raw.toWord (r : Raw) : Option Word :=
  if r.opcode ≤ 63 ∧ r.operand ≤ 0x3FFFFF then some (BitVec.ofNat 32 r.number) else none

/-! ### The sub-fields of an operand (numbered as the bits of the whole word) -/

/-- A sign-magnitude field of `n` bits: the sign is its top bit (R11). -/
def SignMag.ofField (n v : Nat) : SignMag := { neg := bit v (n - 1), mag := v % 2 ^ (n - 1) }

/-- The field of `n` bits a sign and magnitude make (R11). -/
def SignMag.toField (n : Nat) (v : SignMag) : Nat := v.neg.toNat * 2 ^ (n - 1) + v.mag

/-- R75. -/
def Rd.ofField (p : Nat) : Rd := { dest := bits p 21 17, x := bits p 16 12, y := bits p 11 7, ignored := bits p 6 0 }

/-- R76. -/
def Ri.ofField (p : Nat) : Ri := { dest := bits p 21 17, x := bits p 16 12, imm := SignMag.ofField 12 (bits p 11 0) }

/-- R77. -/
def Bo.ofField (p : Nat) : Bo := { target := bits p 21 17, base := bits p 16 12, offset := bits p 11 0 }

/-- R78. -/
def Bi.ofField (p : Nat) : Bi :=
  { target := bits p 21 17, base := bits p 16 12, index := bits p 11 7, ignored := bits p 6 0 }

/-- R79. -/
def J.ofField (p : Nat) : J := { val := SignMag.ofField 22 (bits p 21 0) }

/-- R80. -/
def JR.ofField (p : Nat) : JR := { dest := bits p 21 17, ignored := bits p 16 0 }

def Rd.toField (o : Rd) : Nat := o.dest * 2 ^ 17 + o.x * 2 ^ 12 + o.y * 2 ^ 7 + o.ignored

def Ri.toField (o : Ri) : Nat := o.dest * 2 ^ 17 + o.x * 2 ^ 12 + o.imm.toField 12

def Bo.toField (o : Bo) : Nat := o.target * 2 ^ 17 + o.base * 2 ^ 12 + o.offset

def Bi.toField (o : Bi) : Nat := o.target * 2 ^ 17 + o.base * 2 ^ 12 + o.index * 2 ^ 7 + o.ignored

def J.toField (o : J) : Nat := o.val.toField 22

def JR.toField (o : JR) : Nat := o.dest * 2 ^ 17 + o.ignored

def Operand.toField : Operand → Nat
  | .rd o => o.toField
  | .ri o => o.toField
  | .bo o => o.toField
  | .bi o => o.toField
  | .j o => o.toField
  | .jr o => o.toField

/-! ### The opcode map -/

/-- `OPCODE_MAP` (R86): the opcode number of each instruction. -/
abbrev OpcodeMap := Mnemonic → BitVec 6

/-- The default map, the table of R86 (the spec's own choice D1: UNVERIFIED, notes/assumptions/6.md, unsafe for a
binary made with another map). -/
def opcodeMap : OpcodeMap
  | .shl => 1
  | .shr => 2
  | .and => 3
  | .or => 4
  | .xor => 5
  | .not => 6
  | .add => 7
  | .sub => 8
  | .mul => 9
  | .shli => 10
  | .shri => 11
  | .andi => 12
  | .ori => 13
  | .xori => 14
  | .noti => 15
  | .addi => 16
  | .subi => 17
  | .muli => 18
  | .ld8 => 19
  | .ld16 => 20
  | .ld32 => 21
  | .st8 => 22
  | .st16 => 23
  | .st32 => 24
  | .ld8x => 25
  | .ld16x => 26
  | .ld32x => 27
  | .st8x => 28
  | .st16x => 29
  | .st32x => 30
  | .jmp => 31
  | .jmpr => 32
  | .jmpi => 33
  | .int => 34

/-- The 34 names, in the table's order. -/
def allMnemonics : List Mnemonic :=
  [.shl, .shr, .and, .or, .xor, .not, .add, .sub, .mul,
   .shli, .shri, .andi, .ori, .xori, .noti, .addi, .subi, .muli] ++
  [.ld8, .ld16, .ld32, .st8, .st16, .st32, .ld8x, .ld16x, .ld32x, .st8x, .st16x, .st32x, .jmp, .jmpr, .jmpi, .int]

/-- The inverse of the opcode map (R106). -/
def instructionOf (om : OpcodeMap) (opcode : Nat) : Option Mnemonic :=
  allMnemonics.find? fun m => (om m).toNat == opcode

/-! ### Fields to instruction -/

/-- The instruction of a name, its request bits and its operand field, read in the name's family (R75 to R80, R86). -/
def instrOfField (m : Mnemonic) (q : Req) (p : Nat) : Instr :=
  match m with
  | .shl => .shl q (.ofField p)
  | .shr => .shr q (.ofField p)
  | .and => .and q (.ofField p)
  | .or => .or q (.ofField p)
  | .xor => .xor q (.ofField p)
  | .not => .not q (.ofField p)
  | .add => .add q (.ofField p)
  | .sub => .sub q (.ofField p)
  | .mul => .mul q (.ofField p)
  | .shli => .shli q (.ofField p)
  | .shri => .shri q (.ofField p)
  | .andi => .andi q (.ofField p)
  | .ori => .ori q (.ofField p)
  | .xori => .xori q (.ofField p)
  | .noti => .noti q (.ofField p)
  | .addi => .addi q (.ofField p)
  | .subi => .subi q (.ofField p)
  | .muli => .muli q (.ofField p)
  | .ld8 => .ld8 q (.ofField p)
  | .ld16 => .ld16 q (.ofField p)
  | .ld32 => .ld32 q (.ofField p)
  | .st8 => .st8 q (.ofField p)
  | .st16 => .st16 q (.ofField p)
  | .st32 => .st32 q (.ofField p)
  | .ld8x => .ld8x q (.ofField p)
  | .ld16x => .ld16x q (.ofField p)
  | .ld32x => .ld32x q (.ofField p)
  | .st8x => .st8x q (.ofField p)
  | .st16x => .st16x q (.ofField p)
  | .st32x => .st32x q (.ofField p)
  | .jmp => .jmp q (.ofField p)
  | .jmpr => .jmpr q (.ofField p)
  | .jmpi => .jmpi q (.ofField p)
  | .int => .int q (.ofField p)

/-- Why bytes are no instruction. -/
inductive DecodeError where
  /-- Fewer than four bytes. -/
  | tooShort
  /-- An opcode number no instruction holds (R87). -/
  | unassigned (opcode : Nat)
  deriving DecidableEq, Repr

/-- The instruction of a word under an opcode map, or the unassigned opcode it holds (R72, R86, R87). -/
def decodeWith (om : OpcodeMap) (w : Word) : Except DecodeError Instr :=
  let r := Raw.ofWord w
  match instructionOf om r.opcode with
  | some m => .ok (instrOfField m r.req r.operand)
  | none => .error (.unassigned r.opcode)

/-- The instruction of a word under the default map. -/
def decode (w : Word) : Except DecodeError Instr := decodeWith opcodeMap w

/-- The instruction at the head of a byte list and the bytes after it: always four bytes, little-endian (R55, R70). -/
def decodeBytes : List Byte → Except DecodeError (Instr × List Byte)
  | b0 :: b1 :: b2 :: b3 :: rest =>
    match decode (wordOfBytes b0 b1 b2 b3) with
    | .ok i => .ok (i, rest)
    | .error e => .error e
  | _ => .error .tooShort

/-! ### Instruction to word -/

/-- The fields of an instruction under an opcode map. -/
def Instr.toRaw (om : OpcodeMap) (i : Instr) : Raw :=
  { req := i.req, opcode := (om i.mnemonic).toNat, operand := i.operand.toField }

/-- The word of an instruction under an opcode map: rejected when a sub-field does not fit (R73). -/
def encodeWith (om : OpcodeMap) (i : Instr) : Option Word :=
  if i.wf then (i.toRaw om).toWord else none

/-- The word of an instruction under the default map. -/
def encode (i : Instr) : Option Word := encodeWith opcodeMap i

/-- The bytes of a word in the order memory holds them, lowest address first (R55). -/
def bytesOfWord (w : Word) : List Byte := [byteOfWord w 0, byteOfWord w 1, byteOfWord w 2, byteOfWord w 3]

/-- The host's probe: the instruction of a table word. Every bit above `nbits` is 0 (notes/assumptions/16.md). -/
def decodeTableWord (nbits w : Nat) : Option Instr :=
  match decodeBytes (bytesOfWord (BitVec.ofNat 32 (w % 2 ^ nbits))) with
  | .ok (i, _) => some i
  | .error _ => none

end Sys2Proof
end

