-- ==== Sys2Proof/Config.lean ====
section
/-! DEFINITION. The implementation parameters of spec/00_scope.md R5, R6. The values the machine runs with are
`Sys2Proof.Machine.params` in Sys2Proof/Machine/Params.lean; the opcode map is in Sys2Proof/Decode.lean. -/

namespace Sys2Proof

/-- `RI_FATAL` (R5, R121, D3): which register-immediate operations are fatal. -/
inductive RiFatal where
  /-- Only an immediate outside `0..255` is fatal. -/
  | operand
  /-- An immediate or an exact result outside `0..255` is fatal. -/
  | both
  deriving DecidableEq, Repr

/-- `SHIFT_WRAP` (R5, R122 to R124, D4): what a shift by 8 or more gives. -/
inductive ShiftWrap where
  /-- The exact shift taken modulo 256. -/
  | exactMod256
  /-- A shift by the amount modulo 8, with the carry telling that the amount was 8 or more. -/
  | amountMod8
  deriving DecidableEq, Repr

/-- `RESET_KIND` (R5, R250, D26): how the block is built. -/
inductive ResetKind where
  | blank
  | random
  deriving DecidableEq, Repr

/-- `GPR_LO` of R5: the lowest index of a real register. -/
abbrev gprLo : Nat := 1

/-- `GPR_HI` of R5: the highest index of a real register. -/
abbrev gprHi : Nat := 29

/-- `REG_IDX_W` of R5: the width of a register index field. -/
abbrev regIdxW : Nat := 5

/-- The parameters a run is made with (R5). The widths and the register indices are types and constants of the
model (DESIGN CHOICE, notes/assumptions/9.md: safe). -/
structure Config where
  /-- `MEM_SIZE`: byte addresses `0 .. memSize-1` exist. -/
  memSize : Nat
  /-- `COPY_REG_LIMIT`: a load or store byte copy needs a register index below it (R175). -/
  copyRegLimit : Nat
  riFatal : RiFatal
  shiftWrap : ShiftWrap
  /-- `ENTRY_PC`: the pc the host starts a run with (R253). -/
  entryPc : Byte
  deriving DecidableEq, Repr

/-- The constraints between parameters (R6, D22). -/
abbrev Config.Valid (c : Config) : Prop :=
  1 ≤ c.memSize ∧ c.memSize ≤ 256 ∧ gprHi + 1 ≤ c.copyRegLimit ∧ gprHi < 2 ^ regIdxW

end Sys2Proof
end

