-- ==== Sys2Proof/Machine/Params.lean ====
section
/-! DEFINITION. The parameter values the machine runs with: the defaults of spec/00_scope.md R5. -/

namespace Sys2Proof.Machine

/-- The defaults of R5. `RI_FATAL` and `SHIFT_WRAP` are the spec's own choices D3 and D4 and the literals are unaudited
(UNVERIFIED, notes/assumptions/7.md, 8.md, 9.md: unsafe where the hardware differs). -/
def params : Config :=
  { memSize := 255, copyRegLimit := 31, riFatal := .both, shiftWrap := .exactMod256, entryPc := 0 }

end Sys2Proof.Machine
end

