-- ==== Sys2Proof/Machine/State.lean ====
section
/-! DEFINITION. The state of the ETD32 core (spec/10_state.md R20, R34, R35), the reasons a step can stop, and the
state after reset (spec/70_reset_and_hazards.md R251). -/

namespace Sys2Proof.Machine

/-- The four condition flags (R29). -/
structure Flags where
  c : Bool
  z : Bool
  g : Bool
  l : Bool
  deriving DecidableEq, Repr

/-- Memory: the bytes that do not read 0, as (address, byte) pairs in one canonical form. -/
abbrev Memory := List Host.Cell

/-- What an address no pair lists reads as: the value every byte has after a BLANK reset (R251). -/
def Memory.unlisted : Byte := 0

/-- The canonical form: addresses strictly rising, and no pair equal to what an unlisted address reads as. -/
abbrev Memory.wf (m : Memory) : Prop :=
  m.Pairwise (fun p p' => p.1 < p'.1) ∧ ∀ p ∈ m, p.2 ≠ Memory.unlisted

/-- Every listed address exists in a memory of `n` bytes (R50). -/
abbrev Memory.below (n : Nat) (m : Memory) : Prop := ∀ p ∈ m, p.1 < n

/-- The five halt causes (R221). Observation only: no rule reads one (R34). -/
inductive HaltCause where
  | interrupt
  | unimplemented
  | copyRegInvalid
  | memOutOfRange
  | jumpOutOfRange
  deriving DecidableEq, Repr

/-- The code of a cause (the table of R221). -/
def HaltCause.code : HaltCause → Nat
  | .interrupt => 1
  | .unimplemented => 2
  | .copyRegInvalid => 3
  | .memOutOfRange => 4
  | .jumpOutOfRange => 5

/-- The two Fatal reasons (R222). -/
inductive FatalReason where
  | riImmediate
  | fetchOutOfRange
  deriving DecidableEq, Repr

/-- The run state (R33), with the cause recorded at a halt (R34). -/
inductive RunState where
  | runnable
  | halted (cause : HaltCause)
  deriving DecidableEq, Repr

/-- The state (R20), with the halt cause inside `run` (R34) and the Fatal mark (R35). -/
structure State where
  /-- GPR[1..29]; entry `k` is register `k + 1` (R21). -/
  regs : Vector Byte 29
  /-- The program counter (R26). -/
  pc : Byte
  /-- C, Z, G, L (R29). -/
  flags : Flags
  /-- MEM (R32). -/
  mem : Memory
  /-- Runnable or Halted (R33). -/
  run : RunState
  /-- The Fatal mark (R35): none until a step's outcome is Fatal (notes/assumptions/2.md: DEDUCED). -/
  fatal : Option FatalReason
  deriving DecidableEq, Repr

/-- Why no step exists (R109). No instruction raises one of these: only `step`, at a state that has no step. -/
inductive Fault where
  /-- Raised by `step` at a state whose run state is Halted (R109). Safe: the machine has no step there. -/
  | halted (cause : HaltCause)
  /-- Raised by `step` at a state with the Fatal mark (R109). Safe: the machine has no step there. -/
  | fatal (reason : FatalReason)
  deriving DecidableEq, Repr

/-- No meaning for an instruction. -/
inductive Refusal where
  /-- Raised by an arm of `exec` whose instruction has no meaning yet (no arm is one now). Safe: the model stops. -/
  | notModelled (mnemonic : String)
  deriving DecidableEq, Repr

/-- What a step answers. -/
abbrev Result := Host.Outcome State Fault Refusal

/-- The BLANK reset (R251): every component at zero, Runnable. That the reset is BLANK and not RANDOM is the model's
DESIGN CHOICE (R250 leaves `RESET_KIND` open; notes/assumptions/4.md, unsafe). -/
def State.reset : State :=
  { regs := Vector.replicate 29 0
    pc := 0
    flags := { c := false, z := false, g := false, l := false }
    mem := []
    run := .runnable
    fatal := none }

end Sys2Proof.Machine
end

