-- ==== Sys2Proof/Machine/Ops.lean ====
section
/-! DEFINITION. The named operations every meaning is made of: registers, memory, pc, the gate, and the two ways a run
ends (spec/10_state.md, 20_memory.md, 40_sequencer.md R100 to R102, 60_exceptions.md). -/

namespace Sys2Proof.Machine

/-! ### Registers (R21 to R23) -/

/-- A real register's place in the file. -/
theorem regPlace_lt {r : Nat} (h : gprLo ≤ r ∧ r ≤ gprHi) : r - 1 < 29 := by
  simp only [gprLo, gprHi] at h
  omega

/-- `x[r]` (R21): 0 for a black hole. -/
def State.readReg (s : State) (r : Nat) : Byte :=
  if h : gprLo ≤ r ∧ r ≤ gprHi then s.regs[r - 1]'(regPlace_lt h) else 0

/-- `x[r] <- v` (R22): nothing changes for a black hole. -/
def State.writeReg (s : State) (r : Nat) (v : Byte) : State :=
  if h : gprLo ≤ r ∧ r ≤ gprHi then { s with regs := s.regs.set (r - 1) v (regPlace_lt h) } else s

/-! ### Memory (R50 to R55) -/

/-- The byte a listed or unlisted address holds. -/
def Memory.get : Memory → Nat → Byte
  | [], _ => Memory.unlisted
  | (b, u) :: m, a => if a = b then u else Memory.get m a

/-- A pair put in its place among rising addresses. -/
def Memory.insert (a : Nat) (v : Byte) : Memory → Memory
  | [] => [(a, v)]
  | (b, u) :: m => if a < b then (a, v) :: (b, u) :: m else (b, u) :: Memory.insert a v m

/-- Byte `a` set to `v`, in canonical form. -/
def Memory.set (m : Memory) (a : Nat) (v : Byte) : Memory :=
  let rest := m.filter fun p => p.1 != a
  if v = Memory.unlisted then rest else Memory.insert a v rest

/-- `MemRead(a, 1)` (R51): none is ⊥. -/
def Memory.readByte (c : Config) (m : Memory) (a : Nat) : Option Byte :=
  if a < c.memSize then some (m.get a) else none

/-- `MemWrite(a, 1, v)` (R52): none is ⊥. -/
def Memory.writeByte (c : Config) (m : Memory) (a : Nat) (v : Byte) : Option Memory :=
  if a < c.memSize then some (m.set a v) else none

/-- The address of byte `k` of an access at `a` (R53, R54, R59). -/
def byteAddr (a k : Nat) : Nat := (a + k) % 256

/-- `MemRead(a, 4)` (R53): fails as a whole if any byte is unreadable. -/
def Memory.readWord (c : Config) (m : Memory) (a : Nat) : Option Word := do
  let b0 ← m.readByte c (byteAddr a 0)
  let b1 ← m.readByte c (byteAddr a 1)
  let b2 ← m.readByte c (byteAddr a 2)
  let b3 ← m.readByte c (byteAddr a 3)
  return wordOfBytes b0 b1 b2 b3

/-- `MemWrite(a, 4, w)` (R54): all four addresses are checked before any byte is written. -/
def Memory.writeWord (c : Config) (m : Memory) (a : Nat) (w : Word) : Option Memory :=
  if byteAddr a 0 < c.memSize ∧ byteAddr a 1 < c.memSize ∧ byteAddr a 2 < c.memSize ∧ byteAddr a 3 < c.memSize then
    some ((((m.set (byteAddr a 0) (byteOfWord w 0)).set (byteAddr a 1) (byteOfWord w 1)).set
      (byteAddr a 2) (byteOfWord w 2)).set (byteAddr a 3) (byteOfWord w 3))
  else none

/-! ### The program counter (R26, R28) -/

/-- `pc <- target`. -/
def State.setPc (s : State) (target : Byte) : State := { s with pc := target }

/-- `pc <- (pc + 4) mod 256`. -/
def State.advance (s : State) : State := { s with pc := s.pc + 4 }

/-- The flags replaced. -/
def State.setFlags (s : State) (f : Flags) : State := { s with flags := f }

/-- The memory replaced. -/
def State.setMem (s : State) (m : Memory) : State := { s with mem := m }

/-! ### The two ways a run ends (R220 to R225)

Taking one of these is all the exception mechanism the core has: nothing is saved, no vector is fetched and control
goes nowhere (R223, R225). There is no return from either (R229). -/

/-- `raise Halt(cause)` (R12, R223): the run state alone changes, and the pc stays (notes/assumptions/1.md). -/
def State.raiseHalt (s : State) (cause : HaltCause) : State := { s with run := .halted cause }

/-- `raise Fatal(reason)` (R12, R35, R222): the mark alone changes (notes/assumptions/2.md). -/
def State.raiseFatal (s : State) (reason : FatalReason) : State := { s with fatal := some reason }

/-- A `clock` step is defined: Runnable and no Fatal mark (R103, R109). -/
def State.live (s : State) : Bool := decide (s.run = .runnable) && s.fatal.isNone

/-! ### The gate (R100 to R102) -/

/-- `gate(i)` of R100, for the request bits and the flags. -/
def gate (q : Req) (f : Flags) : Bool :=
  (!q.c || f.c) && (!q.l || f.l) && (!q.z || f.z) && (!q.g || f.g)

/-- The effect when the gate passes; otherwise the pc alone advances (R102, R103). -/
def gated (q : Req) (s : State) (effect : State) : State := if gate q s.flags then effect else s.advance

end Sys2Proof.Machine
end

