-- ==== Sys2Proof/Machine/Operands.lean ====
section
/-! DEFINITION. How each operand form reaches the datapath (spec/30_encoding.md R81, R84): effective addresses,
the register-immediate's legality, jump targets. -/

namespace Sys2Proof.Machine

/-- Bo effective address (R170): an 8-bit wrapping sum of the base and the unsigned offset. -/
def State.eaBo (s : State) (o : Bo) : Byte := s.readReg o.base + BitVec.ofNat 8 o.offset

/-- Bi effective address (R171). -/
def State.eaBi (s : State) (o : Bi) : Byte := s.readReg o.base + s.readReg o.index

/-- A value lies in the unsigned byte range (R121, R124). -/
def fitsByte (v : Int) : Bool := decide (0 ≤ v) && decide (v ≤ 255)

/-- A target whose four bytes are addressable (R199). -/
def validTarget (c : Config) (t : Int) : Bool := decide (0 ≤ t) && decide (t + 4 ≤ c.memSize)

end Sys2Proof.Machine
end

