-- ==== Sys2Proof/Machine/Flags.lean ====
section
/-! DEFINITION. What an ALU operation computes: the exact result, the result byte and the flags
(spec/41_alu.md R122 to R126). -/

namespace Sys2Proof.Machine

/-- The nine ALU operations (R122). -/
inductive AluOp where
  | shl | shr | and | or | xor | not | add | sub | mul
  deriving DecidableEq, Repr

/-- `E(op, a, b)` of R122. -/
def exactResult (op : AluOp) (a b : Nat) : Int :=
  match op with
  | .shl => (a * 2 ^ b : Nat)
  | .shr => (a / 2 ^ b : Nat)
  | .and => (a &&& b : Nat)
  | .or => (a ||| b : Nat)
  | .xor => (a ^^^ b : Nat)
  | .not => 255 - (a : Int)
  | .add => (a : Int) + b
  | .sub => (a : Int) - b
  | .mul => (a * b : Nat)

/-- SHL and SHR, whose amount the parameter `SHIFT_WRAP` concerns. -/
def AluOp.isShift (op : AluOp) : Bool := op == .shl || op == .shr

/-- `pre(op, a, b)` of R122. -/
def preResult (w : ShiftWrap) (op : AluOp) (a b : Nat) : Int :=
  match w with
  | .exactMod256 => exactResult op a b
  | .amountMod8 => if op.isShift then exactResult op a (b % 8) else exactResult op a b

/-- The result byte `r` (R123). -/
def resultByte (w : ShiftWrap) (op : AluOp) (a b : Nat) : Byte := BitVec.ofInt 8 (preResult w op a b)

/-- The carry (R124). The shifts' carry under `AMOUNT_MOD_8` is the spec's general knowledge GK1
(PRESUMED, notes/assumptions/8.md; the machine's parameters do not use it). -/
def carryOf (w : ShiftWrap) (op : AluOp) (a b : Nat) : Bool :=
  match w with
  | .exactMod256 => !fitsByte (preResult w op a b)
  | .amountMod8 => if op.isShift then decide (8 ≤ b) else !fitsByte (preResult w op a b)

/-- The flags after an ALU operation: C, Z, G from the result, L kept (R124 to R126). -/
def aluFlags (w : ShiftWrap) (op : AluOp) (a b : Nat) (f : Flags) : Flags :=
  { c := carryOf w op a b
    z := resultByte w op a b == 0
    g := decide (0 < (resultByte w op a b).toNat)
    l := f.l }

/-- The register-immediate legality check (R121): true when the instruction has a result. -/
def riLegal (c : Config) (op : AluOp) (a : Nat) (imm : Int) : Bool :=
  fitsByte imm && (decide (c.riFatal = .operand) || fitsByte (preResult c.shiftWrap op a imm.toNat))

end Sys2Proof.Machine
end

