-- ==== Sys2Proof/Machine/Alu.lean ====
section
/-! DEFINITION. The ALU instructions (spec/41_alu.md): nine register-register and nine register-immediate. -/

namespace Sys2Proof.Machine

/-- Write-back (R127): the result to `dest` (discarded for a black hole), the flags, and the pc. -/
def aluWriteBack (c : Config) (op : AluOp) (dest a b : Nat) (s : State) : State :=
  ((s.writeReg dest (resultByte c.shiftWrap op a b)).setFlags (aluFlags c.shiftWrap op a b s.flags)).advance

/-- An Rd instruction once gated in (R120, R127, R128). -/
def aluRd (c : Config) (op : AluOp) (o : Rd) (s : State) : State :=
  aluWriteBack c op o.dest (s.readReg o.x).toNat (s.readReg o.y).toNat s

/-- An Ri instruction once gated in (R121, R127, R128). -/
def aluRi (c : Config) (op : AluOp) (o : Ri) (s : State) : State :=
  if riLegal c op (s.readReg o.x).toNat o.imm.val then
    aluWriteBack c op o.dest (s.readReg o.x).toNat o.imm.val.toNat s
  else s.raiseFatal .riImmediate

/-- SHL (R130). -/
def execShl (q : Req) (o : Rd) (s : State) : Result := .next (gated q s (aluRd params .shl o s))

/-- SHR (R131). -/
def execShr (q : Req) (o : Rd) (s : State) : Result := .next (gated q s (aluRd params .shr o s))

/-- AND (R132). -/
def execAnd (q : Req) (o : Rd) (s : State) : Result := .next (gated q s (aluRd params .and o s))

/-- OR (R133). -/
def execOr (q : Req) (o : Rd) (s : State) : Result := .next (gated q s (aluRd params .or o s))

/-- XOR (R134). -/
def execXor (q : Req) (o : Rd) (s : State) : Result := .next (gated q s (aluRd params .xor o s))

/-- NOT (R135). -/
def execNot (q : Req) (o : Rd) (s : State) : Result := .next (gated q s (aluRd params .not o s))

/-- ADD (R136). -/
def execAdd (q : Req) (o : Rd) (s : State) : Result := .next (gated q s (aluRd params .add o s))

/-- SUB (R137). -/
def execSub (q : Req) (o : Rd) (s : State) : Result := .next (gated q s (aluRd params .sub o s))

/-- MUL (R138). -/
def execMul (q : Req) (o : Rd) (s : State) : Result := .next (gated q s (aluRd params .mul o s))

/-- SHLI (R140). -/
def execShli (q : Req) (o : Ri) (s : State) : Result := .next (gated q s (aluRi params .shl o s))

/-- SHRI (R141). -/
def execShri (q : Req) (o : Ri) (s : State) : Result := .next (gated q s (aluRi params .shr o s))

/-- ANDI (R142). -/
def execAndi (q : Req) (o : Ri) (s : State) : Result := .next (gated q s (aluRi params .and o s))

/-- ORI (R143). -/
def execOri (q : Req) (o : Ri) (s : State) : Result := .next (gated q s (aluRi params .or o s))

/-- XORI (R144). -/
def execXori (q : Req) (o : Ri) (s : State) : Result := .next (gated q s (aluRi params .xor o s))

/-- NOTI (R145). -/
def execNoti (q : Req) (o : Ri) (s : State) : Result := .next (gated q s (aluRi params .not o s))

/-- ADDI (R146). -/
def execAddi (q : Req) (o : Ri) (s : State) : Result := .next (gated q s (aluRi params .add o s))

/-- SUBI (R147). -/
def execSubi (q : Req) (o : Ri) (s : State) : Result := .next (gated q s (aluRi params .sub o s))

/-- MULI (R148). -/
def execMuli (q : Req) (o : Ri) (s : State) : Result := .next (gated q s (aluRi params .mul o s))

end Sys2Proof.Machine
end

