-- ==== Sys2Proof/Machine/Control.lean ====
section
/-! DEFINITION. The control-flow instructions (spec/43_control.md). -/

namespace Sys2Proof.Machine

/-- `pc <- (pc + off) mod 256` (R200): relative to the jump's own address, the target not checked. -/
def jumpRelative (off : Int) (s : State) : State := s.setPc (BitVec.ofInt 8 ((s.pc.toNat : Int) + off))

/-- A jump to an absolute target: a halt with the pc unchanged when the target is not valid (R199, R201, R202). -/
def jumpAbsolute (c : Config) (t : Int) (s : State) : State :=
  if validTarget c t then s.setPc (BitVec.ofInt 8 t) else s.raiseHalt .jumpOutOfRange

/-- JMP (R200). -/
def execJmp (q : Req) (o : J) (s : State) : Result := .next (gated q s (jumpRelative o.val.val s))

/-- JMPR (R201). -/
def execJmpr (q : Req) (o : JR) (s : State) : Result :=
  .next (gated q s (jumpAbsolute params (s.readReg o.dest).toNat s))

/-- JMPI (R202). -/
def execJmpi (q : Req) (o : J) (s : State) : Result := .next (gated q s (jumpAbsolute params o.val.val s))

/-- INT (R203): the operand has no effect (R85). -/
def execInt (q : Req) (_o : J) (s : State) : Result := .next (gated q s (s.raiseHalt .interrupt))

end Sys2Proof.Machine
end

