-- ==== Sys2Proof/Machine/LoadStore.lean ====
section
/-! DEFINITION. The loads and stores (spec/42_loadstore.md): byte by byte, in ascending order, not atomic (R176). -/

namespace Sys2Proof.Machine

/-- The load loop (R173): `n` bytes from byte `k` on. On the first byte that fails a check it halts with the bytes
before it committed (R175, R176). -/
def loadBytes (c : Config) (ea : Byte) (target : Nat) : (n k : Nat) → State → State
  | 0, _, s => s.advance
  | n + 1, k, s =>
    if c.copyRegLimit ≤ target + k then s.raiseHalt .copyRegInvalid
    else
      match s.mem.readByte c (byteAddr ea.toNat k) with
      | none => s.raiseHalt .memOutOfRange
      | some v => loadBytes c ea target n (k + 1) (s.writeReg (target + k) v)

/-- The store loop (R174): `n` bytes from byte `k` on. -/
def storeBytes (c : Config) (ea : Byte) (target : Nat) : (n k : Nat) → State → State
  | 0, _, s => s.advance
  | n + 1, k, s =>
    if c.copyRegLimit ≤ target + k then s.raiseHalt .copyRegInvalid
    else
      match s.mem.writeByte c (byteAddr ea.toNat k) (s.readReg (target + k)) with
      | none => s.raiseHalt .memOutOfRange
      | some m => storeBytes c ea target n (k + 1) (s.setMem m)

/-- A base + offset load of `n` bytes: the EA is computed once, from the registers at the start (R170, R172). -/
def loadBo (c : Config) (n : Nat) (o : Bo) (s : State) : State := loadBytes c (s.eaBo o) o.target n 0 s

/-- A base + offset store of `n` bytes (R170, R172). -/
def storeBo (c : Config) (n : Nat) (o : Bo) (s : State) : State := storeBytes c (s.eaBo o) o.target n 0 s

/-- A base + index load of `n` bytes (R171, R172). -/
def loadBi (c : Config) (n : Nat) (o : Bi) (s : State) : State := loadBytes c (s.eaBi o) o.target n 0 s

/-- A base + index store of `n` bytes (R171, R172). -/
def storeBi (c : Config) (n : Nat) (o : Bi) (s : State) : State := storeBytes c (s.eaBi o) o.target n 0 s

/-- LD8 (R180). -/
def execLd8 (q : Req) (o : Bo) (s : State) : Result := .next (gated q s (loadBo params 1 o s))

/-- LD16 (R181). -/
def execLd16 (q : Req) (o : Bo) (s : State) : Result := .next (gated q s (loadBo params 2 o s))

/-- LD32 (R182). -/
def execLd32 (q : Req) (o : Bo) (s : State) : Result := .next (gated q s (loadBo params 4 o s))

/-- ST8 (R183). -/
def execSt8 (q : Req) (o : Bo) (s : State) : Result := .next (gated q s (storeBo params 1 o s))

/-- ST16 (R184). -/
def execSt16 (q : Req) (o : Bo) (s : State) : Result := .next (gated q s (storeBo params 2 o s))

/-- ST32 (R185). -/
def execSt32 (q : Req) (o : Bo) (s : State) : Result := .next (gated q s (storeBo params 4 o s))

/-- LD8X (R186). -/
def execLd8x (q : Req) (o : Bi) (s : State) : Result := .next (gated q s (loadBi params 1 o s))

/-- LD16X (R187). -/
def execLd16x (q : Req) (o : Bi) (s : State) : Result := .next (gated q s (loadBi params 2 o s))

/-- LD32X (R188). -/
def execLd32x (q : Req) (o : Bi) (s : State) : Result := .next (gated q s (loadBi params 4 o s))

/-- ST8X (R189). -/
def execSt8x (q : Req) (o : Bi) (s : State) : Result := .next (gated q s (storeBi params 1 o s))

/-- ST16X (R190). -/
def execSt16x (q : Req) (o : Bi) (s : State) : Result := .next (gated q s (storeBi params 2 o s))

/-- ST32X (R191). -/
def execSt32x (q : Req) (o : Bi) (s : State) : Result := .next (gated q s (storeBi params 4 o s))

end Sys2Proof.Machine
end

