-- ==== Sys2Proof/Machine/Dispatch.lean ====
section
/-! DEFINITION. One arm per instruction (spec/40_sequencer.md R106). Every meaning passes the gate first (R103). -/

namespace Sys2Proof.Machine

def exec (i : Instr) (s : State) : Host.Outcome State Fault Refusal :=
  match i with
  | .shl q o => Sys2Proof.Machine.execShl q o s
  | .shr q o => Sys2Proof.Machine.execShr q o s
  | .and q o => Sys2Proof.Machine.execAnd q o s
  | .or q o => Sys2Proof.Machine.execOr q o s
  | .xor q o => Sys2Proof.Machine.execXor q o s
  | .not q o => Sys2Proof.Machine.execNot q o s
  | .add q o => Sys2Proof.Machine.execAdd q o s
  | .sub q o => Sys2Proof.Machine.execSub q o s
  | .mul q o => Sys2Proof.Machine.execMul q o s
  | .shli q o => Sys2Proof.Machine.execShli q o s
  | .shri q o => Sys2Proof.Machine.execShri q o s
  | .andi q o => Sys2Proof.Machine.execAndi q o s
  | .ori q o => Sys2Proof.Machine.execOri q o s
  | .xori q o => Sys2Proof.Machine.execXori q o s
  | .noti q o => Sys2Proof.Machine.execNoti q o s
  | .addi q o => Sys2Proof.Machine.execAddi q o s
  | .subi q o => Sys2Proof.Machine.execSubi q o s
  | .muli q o => Sys2Proof.Machine.execMuli q o s
  | .ld8 q o => Sys2Proof.Machine.execLd8 q o s
  | .ld16 q o => Sys2Proof.Machine.execLd16 q o s
  | .ld32 q o => Sys2Proof.Machine.execLd32 q o s
  | .st8 q o => Sys2Proof.Machine.execSt8 q o s
  | .st16 q o => Sys2Proof.Machine.execSt16 q o s
  | .st32 q o => Sys2Proof.Machine.execSt32 q o s
  | .ld8x q o => Sys2Proof.Machine.execLd8x q o s
  | .ld16x q o => Sys2Proof.Machine.execLd16x q o s
  | .ld32x q o => Sys2Proof.Machine.execLd32x q o s
  | .st8x q o => Sys2Proof.Machine.execSt8x q o s
  | .st16x q o => Sys2Proof.Machine.execSt16x q o s
  | .st32x q o => Sys2Proof.Machine.execSt32x q o s
  | .jmp q o => Sys2Proof.Machine.execJmp q o s
  | .jmpr q o => Sys2Proof.Machine.execJmpr q o s
  | .jmpi q o => Sys2Proof.Machine.execJmpi q o s
  | .int q o => Sys2Proof.Machine.execInt q o s

end Sys2Proof.Machine
end

