-- ==== Sys2Proof/Machine/Sequencer.lean ====
section
/-! DEFINITION. One clock step of a live machine (spec/40_sequencer.md R103 to R108) and the placing of an instruction
where the next fetch reads it. -/

namespace Sys2Proof.Machine

/-- The fetch (R104): the atomic word read at the pc. -/
def State.fetch (s : State) : Option Word := s.mem.readWord params s.pc.toNat

/-- What a fetched word does (R105 to R108): an assigned opcode runs its instruction, an unassigned one halts once it
has passed the gate (R87, R102, R107). -/
def runWord (w : Word) (s : State) : Result :=
  match decode w with
  | .ok i => exec i s
  | .error _ => .next (gated (Raw.ofWord w).req s (s.raiseHalt .unimplemented))

/-- `clock` on a live state (R103). -/
def clock (s : State) : Result :=
  match s.fetch with
  | none => .next (s.raiseFatal .fetchOutOfRange)
  | some w => runWord w s

/-- One step: `clock` on a Runnable state with no Fatal mark; from any other state no step exists (R103, R109), which
the model answers with a named fault (notes/assumptions/3.md, safe). -/
def clockOrStop (s : State) : Result :=
  match s.fatal, s.run with
  | some r, _ => .fault (.fatal r)
  | none, .halted h => .fault (.halted h)
  | none, .runnable => clock s

/-- The state with a word stored where the next step fetches, and live. A pc no fetch succeeds at is first set to the
entry pc (notes/assumptions/15.md). -/
def placeWord (s : State) (w : Word) : State :=
  let pc := if s.pc.toNat + 4 ≤ params.memSize then s.pc else params.entryPc
  { s with pc := pc, run := .runnable, fatal := none, mem := (s.mem.writeWord params pc.toNat w).getD s.mem }

end Sys2Proof.Machine
end

