-- ==== Sys2Proof/Machine/Step.lean ====
section
/-! DEFINITION. The step of the machine and the host's placing of an instruction word (spec/40_sequencer.md). -/

namespace Sys2Proof.Machine

/-- One `clock` step (R103, R109). -/
def step (s : State) : Host.Outcome State Fault Refusal := clockOrStop s

/-- The state with an instruction stored where the next step fetches, so that the very next step runs it
(notes/assumptions/15.md). Every bit above `nbits` is 0. -/
def State.withFetchWord (s : State) (nbits w : Nat) : State := placeWord s (BitVec.ofNat 32 (w % 2 ^ nbits))

end Sys2Proof.Machine
end

