-- ==== Sys2Proof/Machine/Reset.lean ====
section
/-! DEFINITION. How the block is built: BLANK or RANDOM (spec/70_reset_and_hazards.md R250 to R252). -/

namespace Sys2Proof.Machine

/-- What a RANDOM reset draws (R252): every register, the pc, the four flags and every memory byte. A claim about a
RANDOM launch is a claim about every `Draw`; no value is fixed. -/
structure Draw where
  regs : Vector Byte 29
  pc : Byte
  flags : Flags
  memory : Nat → Byte

/-- The memory of `n` bytes with given contents, in canonical form. -/
def Memory.ofBytes (n : Nat) (f : Nat → Byte) : Memory :=
  (List.range n).filterMap fun a => if f a = Memory.unlisted then none else some (a, f a)

/-- The RANDOM reset for one draw (R252). -/
def State.randomReset (c : Config) (d : Draw) : State :=
  { regs := d.regs, pc := d.pc, flags := d.flags, mem := Memory.ofBytes c.memSize d.memory, run := .runnable, fatal := none }

/-- The state a launch starts from (R250): the draw counts under RANDOM alone. -/
def State.launch (c : Config) (k : ResetKind) (d : Draw) : State :=
  match k with
  | .blank => State.reset
  | .random => State.randomReset c d

end Sys2Proof.Machine
end

