-- ==== Sys2Proof/Machine/Ports.lean ====
section
/-! DEFINITION. The host's ports (spec/10_state.md R37 to R44), which act only between steps. A port index and a port
address are 8 bits (R39, R50). `none` is the spec's ⊥: the port's failure, with the state as it was.
No port reads or writes a flag (R30) or changes the run state (R40, R44). -/

namespace Sys2Proof.Machine

/-- `reg_read(r)` (R39). -/
def State.portRegRead (s : State) (r : Byte) : Byte := s.readReg r.toNat

/-- `reg_write(r, v)` (R39). -/
def State.portRegWrite (s : State) (r v : Byte) : State := s.writeReg r.toNat v

/-- `mem_read(a)` (R40). -/
def State.portMemRead (c : Config) (s : State) (a : Byte) : Option Byte := s.mem.readByte c a.toNat

/-- `mem_write(a, v)` (R40). -/
def State.portMemWrite (c : Config) (s : State) (a v : Byte) : Option State := (s.mem.writeByte c a.toNat v).map s.setMem

/-- `mem_read_u32(a)` (R40). -/
def State.portMemReadWord (c : Config) (s : State) (a : Byte) : Option Word := s.mem.readWord c a.toNat

/-- `mem_write_u32(a, w)` (R40). -/
def State.portMemWriteWord (c : Config) (s : State) (a : Byte) (w : Word) : Option State :=
  (s.mem.writeWord c a.toNat w).map s.setMem

/-- `load_instruction(a, i)` (R41), for an instruction as the fields of R72. Fields that do not fit are rejected by
encode (R73), and nothing is written. -/
def State.portLoadInstruction (c : Config) (s : State) (a : Byte) (i : Raw) : Option State := do
  let w ← i.toWord
  s.portMemWriteWord c a w

/-- `current_instruction()` (R42): the fields of the word at the pc. -/
def State.portCurrentInstruction (c : Config) (s : State) : Option Raw := (s.mem.readWord c s.pc.toNat).map Raw.ofWord

/-- The ports that change the state between steps: the writes of R39 and R40, and the load of R41. There is no port
for a flag (R30, R43), for the run state (R44), or, but for `set_pc`, for the pc (R43). -/
inductive Port where
  | regWrite (r v : Byte)
  | memWrite (a v : Byte)
  | memWriteWord (a : Byte) (w : Word)
  | loadInstruction (a : Byte) (i : Raw)
  deriving DecidableEq, Repr

/-- The use of a port of R39 to R41. -/
def State.usePort (c : Config) (s : State) : Port → Option State
  | .regWrite r v => some (s.portRegWrite r v)
  | .memWrite a v => s.portMemWrite c a v
  | .memWriteWord a w => s.portMemWriteWord c a w
  | .loadInstruction a i => s.portLoadInstruction c a i

/-- A run as the host holds it: the state, and whether its first step has been taken (R43; the protocol's own
datum, no state of the machine: notes/assumptions/14.md). -/
structure Session where
  state : State
  stepped : Bool
  deriving DecidableEq, Repr

/-- A launched block before its first step, its pc as the reset left it (R250). -/
def Session.launch (c : Config) (k : ResetKind) (d : Draw) : Session := { state := State.launch c k d, stepped := false }

/-- `set_pc(a)` (R43): refused once a step has been taken. -/
def Session.setPc (h : Session) (a : Byte) : Option Session :=
  if h.stepped then none else some { h with state := h.state.setPc a }

/-- A port of R39 to R41 used between steps (R44). -/
def Session.edit (h : Session) (port : Port) : Option Session :=
  (h.state.usePort params port).map fun s => { h with state := s }

/-- `clock` (R37): the port that takes a step. A state with no step gives none (R109). -/
def Session.clock (h : Session) : Option Session :=
  match step h.state with
  | .next s => some { state := s, stepped := true }
  | .fault _ => none
  | .refused _ => none

/-- Everything the host can do to a run that changes it (R37 to R44). The reads of R39, R40 and R42 change nothing. -/
inductive HostCall where
  | port (p : Port)
  | setPc (a : Byte)
  | clock
  deriving DecidableEq, Repr

/-- One call of the host, which acts between steps or is the step (R37, R44). -/
def Session.call (h : Session) : HostCall → Option Session
  | .port p => h.edit p
  | .setPc a => h.setPc a
  | .clock => h.clock

/-- Steps 1 and 4 of the boot sequence (R253, R254): a launch with the pc set to the entry point. -/
def Session.boot (c : Config) (k : ResetKind) (d : Draw) : Option Session := (Session.launch c k d).setPc c.entryPc

end Sys2Proof.Machine
end

