-- ==== Sys2Proof/Machine/Pseudo.lean ====
section
/-! DEFINITION. The pseudo-instructions (spec/30_encoding.md R92), each one word, with its request bits (R90).
The text syntax of R90 and R91 belongs to the assembler, which 00_scope.md R4 leaves out. -/

namespace Sys2Proof.Pseudo

/-- `NOP` is `JMP 4`. -/
def nop (q : Req) : Instr := .jmp q ⟨⟨false, 4⟩⟩

/-- `HALT` is `INT 0`. -/
def halt (q : Req) : Instr := .int q ⟨⟨false, 0⟩⟩

/-- `LI rD, v` is `ADDI rD, r0, v`. -/
def li (q : Req) (d v : Nat) : Instr := .addi q ⟨d, 0, ⟨false, v⟩⟩

/-- `MOV rD, rX` is `OR rD, rX, r0`. -/
def mov (q : Req) (d x : Nat) : Instr := .or q ⟨d, x, 0, 0⟩

/-- `CLR rD` is `AND rD, r0, r0`. -/
def clr (q : Req) (d : Nat) : Instr := .and q ⟨d, 0, 0, 0⟩

/-- `B.cond off` is `JMP.cond off`: the conditional relative branch, its condition the request bits. -/
def branch (q : Req) (off : SignMag) : Instr := .jmp q ⟨off⟩

end Sys2Proof.Pseudo
end

