-- ==== Sys2Proof/Safety.lean ====
section
/-! DEFINITION. What counts as a good state and a safe run, in the terms claims use
(spec/60_exceptions.md R222, R230; 70_reset_and_hazards.md R258, R259). -/

namespace Sys2Proof.Machine

/-- The invariant of the state: memory in its canonical form and within the addresses that exist (R50), and never a
halt and a Fatal mark together (R35: a Fatal outcome is not Halted). -/
abbrev State.Inv (s : State) : Prop :=
  s.mem.wf ∧ s.mem.below params.memSize ∧ (s.fatal.isSome = true → s.run = .runnable)

/-- The run ended in a halt with this cause (R230: a claim names the halts it accepts). -/
def State.haltedWith (s : State) (cause : HaltCause) : Prop := s.run = .halted cause

/-- No step exists (R109). -/
def State.ended (s : State) : Prop := s.live = false

/-- Steps taken under fuel until a state without a step (R112, R259): how many were taken (R258) and the state
reached. -/
def runFuel : Nat → State → Nat × State
  | 0, s => (0, s)
  | fuel + 1, s =>
    match step s with
    | .next s' => let r := runFuel fuel s'; (r.1 + 1, r.2)
    | .fault _ => (0, s)
    | .refused _ => (0, s)

/-- A safe run: within the fuel it ends in a halt the claim accepts, and not in a Fatal outcome (R222, R230). -/
def State.endsSafely (s : State) (fuel : Nat) (accepts : HaltCause → Prop) : Prop :=
  ∃ cause, accepts cause ∧ (runFuel fuel s).2.haltedWith cause ∧ (runFuel fuel s).2.fatal = none

end Sys2Proof.Machine
end

