-- ==== Sys2Proof/Certificates/Slice0/Obligations.lean ====
section
/-! DEFINITION. The statements for the provers, from the numbered rules of spec/. -/

namespace Sys2Proof.Claims
open Sys2Proof.Machine

/-! ### The words the statements share -/

/-- Every flag the request bits ask for is set (R100). -/
abbrev GateOpen (q : Req) (f : Flags) : Prop :=
  (q.c = true → f.c = true) ∧ (q.l = true → f.l = true) ∧ (q.z = true → f.z = true) ∧ (q.g = true → f.g = true)

/-- Every flag the top four bits of a word ask for is set (R71, R100). -/
abbrev WordGateOpen (w : Word) (f : Flags) : Prop :=
  (w.getLsbD 31 = true → f.c = true) ∧ (w.getLsbD 30 = true → f.l = true) ∧
    (w.getLsbD 29 = true → f.z = true) ∧ (w.getLsbD 28 = true → f.g = true)

/-- A step is defined: Runnable, and no Fatal mark (R103, R109). -/
abbrev Live (s : State) : Prop := s.run = .runnable ∧ s.fatal = none

/-- An index that names a real register (R21). -/
abbrev IsReal (r : Nat) : Prop := 1 ≤ r ∧ r ≤ 29

def SameRegisters (s t : State) : Prop := ∀ r, t.readReg r = s.readReg r

def SameMemory (s t : State) : Prop := ∀ a, t.mem.readByte params a = s.mem.readByte params a

/-- The four bytes of the word at the pc. -/
abbrev FetchesWord (s : State) (w : Word) : Prop :=
  ∀ k < 4, s.mem.readByte params ((s.pc.toNat + k) % 256) = some (BitVec.ofNat 8 (w.toNat / 256 ^ k))

/-- What an executed ALU instruction with unwrapped value `p` leaves: the result byte, the flags, the pc, and
everything else as it was (R123 to R127). -/
structure AluDone (dest : Nat) (p : Int) (s t : State) : Prop where
  result : IsReal dest → ((t.readReg dest).toNat : Int) = p % 256
  blackHole : ¬IsReal dest → t.readReg dest = 0
  carry : t.flags.c = true ↔ ¬(0 ≤ p ∧ p ≤ 255)
  zero : t.flags.z = true ↔ p % 256 = 0
  greater : t.flags.g = true ↔ 0 < p % 256
  less : t.flags.l = s.flags.l
  pc : (t.pc.toNat : Int) = (s.pc.toNat + 4) % 256
  otherRegisters : ∀ r, r ≠ dest → t.readReg r = s.readReg r
  memory : SameMemory s t
  run : t.run = s.run
  fatal : t.fatal = s.fatal

/-- A register-register instruction: its opcode, and for every operand and state its gate lets through, the next state,
with `p` its unwrapped value. -/
def RdRule (m : Mnemonic) (opcode : Nat) (instr : Req → Rd → Instr) (p : Nat → Nat → Int) : Prop :=
  (opcodeMap m).toNat = opcode ∧
  ∀ (q : Req) (o : Rd) (s : State), (instr q o).mnemonic = m ∧
    (GateOpen q s.flags →
      ∃ t, exec (instr q o) s = .next t ∧ AluDone o.dest (p (s.readReg o.x).toNat (s.readReg o.y).toNat) s t)

/-- A register-immediate instruction under `RI_FATAL = BOTH`, the machine's policy: it completes when the immediate and
the value fit a byte, and else only the Fatal mark is set. Under `OPERAND` the immediate alone must fit. -/
def RiRule (m : Mnemonic) (opcode : Nat) (instr : Req → Ri → Instr) (op : AluOp) (p : Nat → Nat → Int) : Prop :=
  (opcodeMap m).toNat = opcode ∧
  (∀ (q : Req) (o : Ri) (s : State), (instr q o).mnemonic = m ∧
    (GateOpen q s.flags →
      ((0 ≤ o.imm.val ∧ o.imm.val ≤ 255 ∧ 0 ≤ p (s.readReg o.x).toNat o.imm.val.toNat ∧
          p (s.readReg o.x).toNat o.imm.val.toNat ≤ 255) →
        ∃ t, exec (instr q o) s = .next t ∧ AluDone o.dest (p (s.readReg o.x).toNat o.imm.val.toNat) s t) ∧
      (¬(0 ≤ o.imm.val ∧ o.imm.val ≤ 255 ∧ 0 ≤ p (s.readReg o.x).toNat o.imm.val.toNat ∧
          p (s.readReg o.x).toNat o.imm.val.toNat ≤ 255) →
        exec (instr q o) s = .next { s with fatal := some .riImmediate }))) ∧
  (∀ (o : Ri) (s : State),
    ((0 ≤ o.imm.val ∧ o.imm.val ≤ 255) →
      AluDone o.dest (p (s.readReg o.x).toNat o.imm.val.toNat) s (aluRi { params with riFatal := .operand } op o s)) ∧
    (¬(0 ≤ o.imm.val ∧ o.imm.val ≤ 255) →
      aluRi { params with riFatal := .operand } op o s = { s with fatal := some .riImmediate }))

/-- Byte `k` of a transfer passes both checks of R175. -/
abbrev ByteOk (target : Nat) (ea : Byte) (k : Nat) : Prop := target + k < 31 ∧ (ea.toNat + k) % 256 < 255

/-- The halt cause of a byte that fails: the register check runs first (R175, R227). -/
def ByteCause (target k : Nat) : HaltCause := if 31 ≤ target + k then .copyRegInvalid else .memOutOfRange

/-- The first `n` bytes of a load are in their registers, and nothing else but pc and run state moved. -/
structure LoadedBytes (n target : Nat) (ea : Byte) (s t : State) : Prop where
  loaded : ∀ k < n, IsReal (target + k) → some (t.readReg (target + k)) = s.mem.readByte params ((ea.toNat + k) % 256)
  otherRegisters : ∀ r, (∀ k < n, r ≠ target + k) ∨ ¬IsReal r → t.readReg r = s.readReg r
  flags : t.flags = s.flags
  memory : SameMemory s t
  fatal : t.fatal = s.fatal

/-- The first `n` bytes of a store are in memory, and nothing else but pc and run state moved. -/
structure StoredBytes (n target : Nat) (ea : Byte) (s t : State) : Prop where
  stored : ∀ k < n, t.mem.readByte params ((ea.toNat + k) % 256) = some (s.readReg (target + k))
  otherBytes : ∀ a, (∀ k < n, a ≠ (ea.toNat + k) % 256) → t.mem.readByte params a = s.mem.readByte params a
  registers : SameRegisters s t
  flags : t.flags = s.flags
  fatal : t.fatal = s.fatal

/-- A load or store of `n` bytes: it completes when every byte passes its checks, and else halts at its first failing
byte, the pc unmoved, with the bytes before that one committed (R173 to R177). -/
def TransferRule (m : Mnemonic) (opcode : Nat) {F : Type} (instr : Req → F → Instr) (target : F → Nat)
    (ea : State → F → Byte) (n : Nat) (done : Nat → Nat → Byte → State → State → Prop) : Prop :=
  (opcodeMap m).toNat = opcode ∧
  ∀ (q : Req) (o : F) (s : State), (instr q o).mnemonic = m ∧
    (GateOpen q s.flags →
      ((∀ k < n, ByteOk (target o) (ea s o) k) →
        ∃ t, exec (instr q o) s = .next t ∧ done n (target o) (ea s o) s t ∧
          t.pc.toNat = (s.pc.toNat + 4) % 256 ∧ t.run = s.run) ∧
      (∀ k < n, (∀ j < k, ByteOk (target o) (ea s o) j) → ¬ByteOk (target o) (ea s o) k →
        ∃ t, exec (instr q o) s = .next t ∧ done k (target o) (ea s o) s t ∧
          t.pc = s.pc ∧ t.run = .halted (ByteCause (target o) k)))

/-- The bytes a load or store moves (R172). -/
def transferWidth : Mnemonic → Nat
  | .ld8 | .st8 | .ld8x | .st8x => 1
  | .ld16 | .st16 | .ld16x | .st16x => 2
  | .ld32 | .st32 | .ld32x | .st32x => 4
  | _ => 0

/-- The step from `s` halted in the load or store at the pc, at its first byte to fail a check, byte `n`: the bytes
before it are committed, in registers or in memory, and nothing else but the run state moved (R175, R176). -/
def HaltedTransfer (s t : State) (c : HaltCause) : Prop :=
  ∃ (w : Word) (i : Instr) (target : Nat) (ea : Byte) (n : Nat),
    FetchesWord s w ∧ decode w = .ok i ∧ GateOpen i.req s.flags ∧
    ((∃ o, i.operand = .bo o ∧ target = o.target ∧ ea = s.eaBo o) ∨
     (∃ o, i.operand = .bi o ∧ target = o.target ∧ ea = s.eaBi o)) ∧
    n < transferWidth i.mnemonic ∧ (∀ k < n, ByteOk target ea k) ∧ ¬ByteOk target ea n ∧ c = ByteCause target n ∧
    ((i.mnemonic.isLoad = true ∧ LoadedBytes n target ea s t) ∨
     (i.mnemonic.isStore = true ∧ StoredBytes n target ea s t))

/-- The number four registers hold, the lowest register least significant (R56). -/
def regNumber (s : State) (t : Nat) : Nat :=
  (s.readReg t).toNat + 2 ^ 8 * (s.readReg (t + 1)).toNat + 2 ^ 16 * (s.readReg (t + 2)).toNat +
    2 ^ 24 * (s.readReg (t + 3)).toNat

/-- Two operands that stand for the same values: equal but for ignored bits, the sign of a zero, and all of an `INT`
value (R82, R85). -/
def SameMeaning (m : Mnemonic) : Operand → Operand → Prop
  | .rd o, .rd o' => o.dest = o'.dest ∧ o.x = o'.x ∧ o.y = o'.y
  | .ri o, .ri o' => o.dest = o'.dest ∧ o.x = o'.x ∧ o.imm.val = o'.imm.val
  | .bo o, .bo o' => o = o'
  | .bi o, .bi o' => o.target = o'.target ∧ o.base = o'.base ∧ o.index = o'.index
  | .j o, .j o' => m = .int ∨ o.val.val = o'.val.val
  | .jr o, .jr o' => o.dest = o'.dest
  | _, _ => False

end Sys2Proof.Claims

open Sys2Proof Sys2Proof.Machine Sys2Proof.Claims

/-! ### Encoding -/

/-- Words written out from the table of R86 and the formats of R75 to R80 decode to the instructions they stand for. -/
def Obligations.TableWordsDecode : Prop :=
  decode 0b1001_000111_00001_00010_00011_0000000 = .ok (.add ⟨true, false, false, true⟩ ⟨1, 2, 3, 0⟩) ∧
  decode 0b0000_010000_00011_00001_1_00000000001 = .ok (.addi .none ⟨3, 1, ⟨true, 1⟩⟩) ∧
  decode 0b0000_010011_00001_00010_000100100000 = .ok (.ld8 .none ⟨1, 2, 288⟩) ∧
  decode 0b0010_011101_00101_01000_01001_0000000 = .ok (.st16x ⟨false, false, true, false⟩ ⟨5, 8, 9, 0⟩) ∧
  decode 0b0000_011111_1_000000000000000000100 = .ok (.jmp .none ⟨⟨true, 4⟩⟩) ∧
  decode 0b0000_100000_00111_00000000000000000 = .ok (.jmpr .none ⟨7, 0⟩) ∧
  decode 0 = .error (.unassigned 0)

/-- Under every opcode map with distinct numbers, the default one among them, every well-formed instruction has a word,
and that word decodes to the instruction with every field as it was (R74, R86). -/
def Obligations.DecodeInvertsEncode : Prop :=
  Function.Injective opcodeMap ∧
  ∀ om : OpcodeMap, Function.Injective om → ∀ i : Instr, i.wf = true →
    ∃ w, encodeWith om i = some w ∧ decodeWith om w = .ok i

/-- Under every opcode map, a word that decodes to an instruction is that instruction's word: no bit is dropped, the
ignored ones and the sign of a zero among them (R74, R85). -/
def Obligations.EncodeInvertsDecode : Prop :=
  ∀ (om : OpcodeMap) (w : Word) (i : Instr), decodeWith om w = .ok i → i.wf = true ∧ encodeWith om i = some w

/-- The fields of every word and the word of all legal fields are exact inverses (R74). -/
def Obligations.WordFieldsRoundTrip : Prop :=
  (∀ w : Word, (Raw.ofWord w).toWord = some w) ∧
  (∀ r : Raw, r.opcode ≤ 63 → r.operand ≤ 0x3FFFFF → ∃ w, r.toWord = some w ∧ Raw.ofWord w = r)

/-- Encode gives the sum of R73, and rejects an opcode, an operand or a sub-field that exceeds its width. -/
def Obligations.EncodeRejectsWideFields : Prop :=
  (∀ r : Raw, r.opcode ≤ 63 → r.operand ≤ 0x3FFFFF → ∃ w, r.toWord = some w ∧
    w.toNat = r.req.c.toNat * 2 ^ 31 + r.req.l.toNat * 2 ^ 30 + r.req.z.toNat * 2 ^ 29 + r.req.g.toNat * 2 ^ 28 +
      r.opcode * 2 ^ 22 + r.operand) ∧
  (∀ r : Raw, (63 < r.opcode ∨ 0x3FFFFF < r.operand) → r.toWord = none) ∧
  (∀ (om : OpcodeMap) (i : Instr), (match i.operand with
    | .rd o => 31 < o.dest ∨ 31 < o.x ∨ 31 < o.y
    | .ri o => 31 < o.dest ∨ 31 < o.x ∨ 2047 < o.imm.mag
    | .bo o => 31 < o.target ∨ 31 < o.base ∨ 4095 < o.offset
    | .bi o => 31 < o.target ∨ 31 < o.base ∨ 31 < o.index
    | .j o => 2 ^ 21 - 1 < o.val.mag
    | .jr o => 31 < o.dest) → encodeWith om i = none)

/-- A sign-magnitude field stands for its magnitude, negated when its top bit is set; its range, both zeros, and the
two fields that use it (R11). -/
def Obligations.SignMagnitudeValue : Prop :=
  (∀ p : Nat, (Ri.ofField p).imm = SignMag.ofField 12 (p % 2 ^ 12) ∧ (J.ofField p).val = SignMag.ofField 22 (p % 2 ^ 22)) ∧
  ∀ n v : Nat, 1 ≤ n → v < 2 ^ n →
    (v.testBit (n - 1) = true → (SignMag.ofField n v).val = -((v % 2 ^ (n - 1) : Nat) : Int)) ∧
    (v.testBit (n - 1) = false → (SignMag.ofField n v).val = ((v % 2 ^ (n - 1) : Nat) : Int)) ∧
    -(2 ^ (n - 1) - 1 : Int) ≤ (SignMag.ofField n v).val ∧ (SignMag.ofField n v).val ≤ (2 ^ (n - 1) - 1 : Int) ∧
    (SignMag.ofField n 0).val = 0 ∧ (SignMag.ofField n (2 ^ (n - 1))).val = 0

/-- Ignored bits and the value of an `INT` (R85), and the sign of a zero (R82), change nothing that an instruction
does, and make none fault: the two instructions have the same next state. -/
def Obligations.IgnoredBitsHaveNoEffect : Prop :=
  ∀ (i j : Instr), i.mnemonic = j.mnemonic → i.req = j.req → SameMeaning i.mnemonic i.operand j.operand →
    ∀ s : State, ∃ t, exec i s = .next t ∧ exec j s = .next t

/-! ### The gate and the step -/

/-- The gate is the implication of R100 for each flag, all four together. -/
def Obligations.GateNeedsEveryRequestedFlag : Prop :=
  ∀ (q : Req) (f : Flags), gate q f = true ↔ GateOpen q f

/-- A gated-off instruction, and a gated-off word of any opcode, only advances the pc by 4 (R102). -/
def Obligations.GatedOffOnlyAdvancesPc : Prop :=
  (∀ (i : Instr) (s : State), ¬GateOpen i.req s.flags → exec i s = .next { s with pc := s.pc + 4 }) ∧
  (∀ (s : State) (w : Word), Live s → FetchesWord s w → ¬WordGateOpen w s.flags →
    step s = .next { s with pc := s.pc + 4 })

/-- When the four bytes at the pc decode to an instruction, the step of a live state is `exec` of it (R103 to R106). -/
def Obligations.StepRunsDecodedInstruction : Prop :=
  ∀ (s : State) (b0 b1 b2 b3 : Byte) (rest : List Byte) (i : Instr), Live s →
    s.mem.readByte params (s.pc.toNat % 256) = some b0 → s.mem.readByte params ((s.pc.toNat + 1) % 256) = some b1 →
    s.mem.readByte params ((s.pc.toNat + 2) % 256) = some b2 → s.mem.readByte params ((s.pc.toNat + 3) % 256) = some b3 →
    decodeBytes (b0 :: b1 :: b2 :: b3 :: rest) = .ok (i, rest) → step s = exec i s

/-- An opcode no instruction holds, 0 or 35 to 63, halts a gated-in word and changes nothing else (R87, R107). -/
def Obligations.UnassignedOpcodeHalts : Prop :=
  (∀ w : Word, (∃ n, decode w = .error (.unassigned n)) ↔
    (w.toNat / 2 ^ 22 % 64 = 0 ∨ 35 ≤ w.toNat / 2 ^ 22 % 64)) ∧
  (∀ (s : State) (w : Word), Live s → FetchesWord s w → WordGateOpen w s.flags →
    (w.toNat / 2 ^ 22 % 64 = 0 ∨ 35 ≤ w.toNat / 2 ^ 22 % 64) →
    step s = .next { s with run := .halted .unimplemented })

/-- A fetch at pc 252 or above is Fatal and changes nothing but the mark; below, it succeeds, aligned or not (R104). -/
def Obligations.FetchOutsideMemoryIsFatal : Prop :=
  ∀ s : State, Live s →
    (252 ≤ s.pc.toNat → step s = .next { s with fatal := some .fetchOutOfRange }) ∧
    (s.pc.toNat < 252 → ∃ w, s.fetch = some w ∧ FetchesWord s w)

/-- No step exists from a Halted state or from a state with a Fatal mark (R109). -/
def Obligations.NoStepFromTerminalStates : Prop :=
  (∀ (s : State) (c : HaltCause), s.run = .halted c → ∀ t, step s ≠ .next t) ∧
  (∀ (s : State) (r : FatalReason), s.fatal = some r → ∀ t, step s ≠ .next t)

/-- A step of a live state always answers one of the three outcomes: continue, a halt, or Fatal (R220). -/
def Obligations.EveryStepHasOneOutcome : Prop :=
  ∀ s : State, Live s → ∃ t, step s = .next t ∧
    ((t.run = .runnable ∧ t.fatal = none) ∨ (∃ c, t.run = .halted c ∧ t.fatal = none) ∨
     (∃ r, t.run = .runnable ∧ t.fatal = some r))

/-- A Fatal outcome writes nothing but the mark; its reason is the fetch when the pc is out of range, and else the
instruction is a register-immediate one (R222). -/
def Obligations.FatalWritesNothing : Prop :=
  ∀ (s t : State) (r : FatalReason), step s = .next t → t.fatal = some r →
    t = { s with fatal := some r } ∧ (r = .fetchOutOfRange ↔ 252 ≤ s.pc.toNat) ∧
    (r = .riImmediate → ∃ w i o, FetchesWord s w ∧ decode w = .ok i ∧ i.operand = .ri o)

/-- A halt saves and moves nothing: the pc, the flags and the mark stay, a halt that is not a transfer's changes
nothing but the run state, and a transfer's halt leaves the bytes before its failing byte committed and nothing else
moved: memory stays in a load, and the registers in a store (R223). -/
def Obligations.HaltMovesNothing : Prop :=
  ∀ (s t : State) (c : HaltCause), step s = .next t → t.run = .halted c →
    t.pc = s.pc ∧ t.flags = s.flags ∧ t.fatal = none ∧
    (c ≠ .copyRegInvalid → c ≠ .memOutOfRange → t = { s with run := .halted c }) ∧
    ((c = .copyRegInvalid ∨ c = .memOutOfRange) → HaltedTransfer s t c)

/-! ### Invariants and whole-machine rules -/

/-- Every step keeps the invariant: canonical memory within the addresses that exist, no halt with a Fatal mark. The
canonical form is the model's choice (notes/assumptions/13.md). -/
def Obligations.StepKeepsInvariant : Prop := ∀ s t : State, s.Inv → step s = .next t → t.Inv

/-- The reset state has the invariant (the canonical form: notes/assumptions/13.md). -/
def Obligations.ResetHasInvariant : Prop := State.reset.Inv

/-- No step writes L (R126). -/
def Obligations.LessIsNeverWritten : Prop := ∀ s t : State, step s = .next t → t.flags.l = s.flags.l

/-- However long a run from a state with L clear, a word that requests L is skipped (R101, R251). -/
def Obligations.LessRequestsNeverRun : Prop :=
  ∀ (n : Nat) (s t u : State) (w : Word), s.flags.l = false → Host.Core.run core n s = .next t → FetchesWord t w →
    w.getLsbD 30 = true → step t = .next u → u = { t with pc := t.pc + 4 }

/-- Only a gated-in ALU instruction that ends neither in a halt nor in a Fatal outcome writes a flag (R29, R30). -/
def Obligations.OnlyAluWritesFlags : Prop :=
  ∀ (i : Instr) (s t : State), Live s → exec i s = .next t → t.flags ≠ s.flags →
    GateOpen i.req s.flags ∧ Live t ∧ ((∃ o, i.operand = .rd o) ∨ (∃ o, i.operand = .ri o))

/-- Only a gated-in ALU instruction's dest and a gated-in load's data registers change (R25). -/
def Obligations.OnlyAluAndLoadsWriteRegisters : Prop :=
  ∀ (i : Instr) (s t : State) (r : Nat), exec i s = .next t → t.readReg r ≠ s.readReg r →
    GateOpen i.req s.flags ∧ IsReal r ∧
    ((∃ o, i.operand = .rd o ∧ r = o.dest) ∨ (∃ o, i.operand = .ri o ∧ r = o.dest) ∨
     (i.mnemonic.isLoad = true ∧ ∃ o, i.operand = .bo o ∧ o.target ≤ r ∧ r < o.target + 4) ∨
     (i.mnemonic.isLoad = true ∧ ∃ o, i.operand = .bi o ∧ o.target ≤ r ∧ r < o.target + 4))

/-- Only a gated-in store changes a byte of memory, and only one of the four from its effective address on (R174). -/
def Obligations.OnlyStoresWriteMemory : Prop :=
  ∀ (i : Instr) (s t : State) (a : Nat), exec i s = .next t →
    t.mem.readByte params a ≠ s.mem.readByte params a →
    GateOpen i.req s.flags ∧ i.mnemonic.isStore = true ∧
    ((∃ o, i.operand = .bo o ∧ ∃ k < 4, a = ((s.eaBo o).toNat + k) % 256) ∨
     (∃ o, i.operand = .bi o ∧ ∃ k < 4, a = ((s.eaBi o).toNat + k) % 256))

/-- The pc after every instruction: the table of R26. -/
def Obligations.PcFollowsTable : Prop :=
  ∀ (i : Instr) (s t : State), Live s → exec i s = .next t →
    (¬Live t → t.pc = s.pc) ∧
    (Live t → ¬GateOpen i.req s.flags → t.pc.toNat = (s.pc.toNat + 4) % 256) ∧
    (Live t → GateOpen i.req s.flags →
      match i with
      | .jmp _ o => (t.pc.toNat : Int) = (s.pc.toNat + o.val.val) % 256
      | .jmpr _ o => t.pc = s.readReg o.dest
      | .jmpi _ o => (t.pc.toNat : Int) = o.val.val
      | _ => t.pc.toNat = (s.pc.toNat + 4) % 256)

/-- `exec` reads neither the halt cause (R34) nor the run state: two states alike in everything else are taken by any
instruction to states alike in everything else. That `exec` is defined on a state that is not Runnable, and does not
look at the run state, is the model's choice (notes/assumptions/21.md); no step runs it there (R109). -/
def Obligations.HaltCauseIsNotRead : Prop :=
  ∀ (i : Instr) (s : State) (x : RunState), ∃ t t', exec i s = .next t ∧ exec i { s with run := x } = .next t' ∧
    t'.regs = t.regs ∧ t'.pc = t.pc ∧ t'.flags = t.flags ∧ t'.mem = t.mem ∧ t'.fatal = t.fatal

/-! ### ALU -/

/-- SHL and SHR (R130, R131), their results under `AMOUNT_MOD_8` too. The carry under `AMOUNT_MOD_8` is general
knowledge and not the source's (GK1, PRESUMED: notes/assumptions/8.md), and no step of the machine uses it. -/
def Obligations.RegisterShifts : Prop :=
  RdRule .shl 0x01 .shl (fun a b => a * 2 ^ b) ∧ RdRule .shr 0x02 .shr (fun a b => ((a / 2 ^ b : Nat) : Int)) ∧
  (∀ a b : Nat, a < 256 → 8 ≤ b →
    (resultByte .amountMod8 .shl a b).toNat = (a * 2 ^ (b % 8)) % 256 ∧ carryOf .amountMod8 .shl a b = true ∧
    (resultByte .amountMod8 .shr a b).toNat = a / 2 ^ (b % 8) ∧ carryOf .amountMod8 .shr a b = true)

/-- AND, OR, XOR and NOT (R132 to R135). -/
def Obligations.RegisterLogic : Prop :=
  RdRule .and 0x03 .and (fun a b => ((a &&& b : Nat) : Int)) ∧ RdRule .or 0x04 .or (fun a b => ((a ||| b : Nat) : Int)) ∧
  RdRule .xor 0x05 .xor (fun a b => ((a ^^^ b : Nat) : Int)) ∧ RdRule .not 0x06 .not (fun a _ => 255 - a)

/-- ADD, SUB and MUL (R136 to R138). -/
def Obligations.RegisterArithmetic : Prop :=
  RdRule .add 0x07 .add (fun a b => a + b) ∧ RdRule .sub 0x08 .sub (fun a b => a - b) ∧
  RdRule .mul 0x09 .mul (fun a b => a * b)

/-- SHLI and SHRI (R140, R141). -/
def Obligations.ImmediateShifts : Prop :=
  RiRule .shli 0x0A .shli .shl (fun a b => a * 2 ^ b) ∧ RiRule .shri 0x0B .shri .shr (fun a b => ((a / 2 ^ b : Nat) : Int))

/-- ANDI, ORI, XORI and NOTI (R142 to R145). -/
def Obligations.ImmediateLogic : Prop :=
  RiRule .andi 0x0C .andi .and (fun a b => ((a &&& b : Nat) : Int)) ∧
  RiRule .ori 0x0D .ori .or (fun a b => ((a ||| b : Nat) : Int)) ∧
  RiRule .xori 0x0E .xori .xor (fun a b => ((a ^^^ b : Nat) : Int)) ∧
  RiRule .noti 0x0F .noti .not (fun a _ => 255 - a)

/-- ADDI, SUBI and MULI (R146 to R148). -/
def Obligations.ImmediateArithmetic : Prop :=
  RiRule .addi 0x10 .addi .add (fun a b => a + b) ∧ RiRule .subi 0x11 .subi .sub (fun a b => a - b) ∧
  RiRule .muli 0x12 .muli .mul (fun a b => a * b)

/-! ### Loads and stores -/

/-- The two effective addresses are 8-bit wrapping sums (R170, R171). -/
def Obligations.EffectiveAddressWraps : Prop :=
  (∀ (s : State) (o : Bo), (s.eaBo o).toNat = ((s.readReg o.base).toNat + o.offset) % 256) ∧
  (∀ (s : State) (o : Bi), (s.eaBi o).toNat = ((s.readReg o.base).toNat + (s.readReg o.index).toNat) % 256)

/-- LD8, LD16 and LD32: completion, and the halt at the first failing byte (R180 to R182). -/
def Obligations.LoadsBaseOffset : Prop :=
  TransferRule .ld8 0x13 .ld8 Bo.target State.eaBo 1 LoadedBytes ∧
  TransferRule .ld16 0x14 .ld16 Bo.target State.eaBo 2 LoadedBytes ∧
  TransferRule .ld32 0x15 .ld32 Bo.target State.eaBo 4 LoadedBytes

/-- ST8, ST16 and ST32: completion, and the halt at the first failing byte (R183 to R185). -/
def Obligations.StoresBaseOffset : Prop :=
  TransferRule .st8 0x16 .st8 Bo.target State.eaBo 1 StoredBytes ∧
  TransferRule .st16 0x17 .st16 Bo.target State.eaBo 2 StoredBytes ∧
  TransferRule .st32 0x18 .st32 Bo.target State.eaBo 4 StoredBytes

/-- LD8X, LD16X and LD32X: completion, and the halt at the first failing byte (R186 to R188). -/
def Obligations.LoadsBaseIndex : Prop :=
  TransferRule .ld8x 0x19 .ld8x Bi.target State.eaBi 1 LoadedBytes ∧
  TransferRule .ld16x 0x1A .ld16x Bi.target State.eaBi 2 LoadedBytes ∧
  TransferRule .ld32x 0x1B .ld32x Bi.target State.eaBi 4 LoadedBytes

/-- ST8X, ST16X and ST32X: completion, and the halt at the first failing byte (R189 to R191). -/
def Obligations.StoresBaseIndex : Prop :=
  TransferRule .st8x 0x1C .st8x Bi.target State.eaBi 1 StoredBytes ∧
  TransferRule .st16x 0x1D .st16x Bi.target State.eaBi 2 StoredBytes ∧
  TransferRule .st32x 0x1E .st32x Bi.target State.eaBi 4 StoredBytes

/-- After a completed 32-bit store the host's word read at its address gives the registers' number (R56). -/
def Obligations.StoreThenHostReadsNumber : Prop :=
  ∀ (q : Req) (o : Bo) (s : State), GateOpen q s.flags → (∀ k < 4, ByteOk o.target (s.eaBo o) k) →
    ∃ t w, exec (.st32 q o) s = .next t ∧ t.portMemReadWord params (s.eaBo o) = some w ∧ w.toNat = regNumber s o.target

/-- A 32-bit store and a 32-bit load from the same effective address carry four registers over in order (R182, R185). -/
def Obligations.StoreLoadRoundTrip : Prop :=
  ∀ (q q' : Req) (o o' : Bo) (s : State), GateOpen q s.flags → GateOpen q' s.flags → s.eaBo o' = s.eaBo o →
    (∀ k < 4, ByteOk o.target (s.eaBo o) k) → (∀ k < 4, ByteOk o'.target (s.eaBo o) k) →
    ∃ t u, exec (.st32 q o) s = .next t ∧ exec (.ld32 q' o') t = .next u ∧
      ∀ k < 4, IsReal (o'.target + k) → u.readReg (o'.target + k) = s.readReg (o.target + k)

/-- A 32-bit store over the next instruction is what the next step fetches (R66, R257). -/
def Obligations.StoreIsSeenByNextFetch : Prop :=
  ∀ (q : Req) (o : Bo) (s : State), Live s → GateOpen q s.flags → s.eaBo o = s.pc + 4 →
    (∀ k < 4, ByteOk o.target (s.eaBo o) k) →
    ∃ t w, exec (.st32 q o) s = .next t ∧ Live t ∧ t.fetch = some w ∧ w.toNat = regNumber s o.target

/-! ### Memory -/

/-- A byte in range is stored and read back with every other byte as it was; out of range both accesses fail (R51, R52). -/
def Obligations.ByteAccess : Prop :=
  ∀ (c : Config) (m : Memory) (a : Nat) (v : Byte),
    (a < c.memSize → (∃ b, m.readByte c a = some b) ∧ ∃ m', m.writeByte c a v = some m' ∧ m'.readByte c a = some v ∧
      ∀ b, b ≠ a → m'.readByte c b = m.readByte c b) ∧
    (c.memSize ≤ a → m.readByte c a = none ∧ m.writeByte c a v = none)

/-- The word accesses are little-endian and atomic, at `(a + k) mod 256` (R53, R54). -/
def Obligations.WordAccess : Prop :=
  ∀ (c : Config) (m : Memory) (a : Nat),
    ((∃ k < 4, c.memSize ≤ (a + k) % 256) → m.readWord c a = none ∧ ∀ w, m.writeWord c a w = none) ∧
    ((∀ k < 4, (a + k) % 256 < c.memSize) →
      (∃ w, m.readWord c a = some w ∧
        ∀ k < 4, m.readByte c ((a + k) % 256) = some (BitVec.ofNat 8 (w.toNat / 256 ^ k))) ∧
      (∀ w, ∃ m', m.writeWord c a w = some m' ∧
        (∀ k < 4, m'.readByte c ((a + k) % 256) = some (BitVec.ofNat 8 (w.toNat / 256 ^ k))) ∧
        ∀ b, (∀ k < 4, b ≠ (a + k) % 256) → m'.readByte c b = m.readByte c b))

/-! ### Control flow -/

/-- JMP adds its signed value to the pc modulo 256, the target not checked, and changes nothing else (R200). -/
def Obligations.JumpRelative : Prop :=
  (opcodeMap .jmp).toNat = 0x1F ∧
  ∀ (q : Req) (o : J) (s : State), GateOpen q s.flags →
    exec (.jmp q o) s = .next { s with pc := BitVec.ofNat 8 (((s.pc.toNat : Int) + o.val.val) % 256).toNat }

/-- JMPR goes to the byte in its register when four bytes fit there, and else halts; nothing else changes
(R199, R201). -/
def Obligations.JumpToRegister : Prop :=
  (opcodeMap .jmpr).toNat = 0x20 ∧
  ∀ (q : Req) (o : JR) (s : State), GateOpen q s.flags →
    ((s.readReg o.dest).toNat + 4 ≤ 255 → exec (.jmpr q o) s = .next { s with pc := s.readReg o.dest }) ∧
    (255 < (s.readReg o.dest).toNat + 4 → exec (.jmpr q o) s = .next { s with run := .halted .jumpOutOfRange })

/-- JMPI goes to its value when that is not negative and four bytes fit there, and else halts; nothing else changes
(R199, R202). -/
def Obligations.JumpToImmediate : Prop :=
  (opcodeMap .jmpi).toNat = 0x21 ∧
  ∀ (q : Req) (o : J) (s : State), GateOpen q s.flags →
    ((0 ≤ o.val.val ∧ o.val.val + 4 ≤ 255) →
      exec (.jmpi q o) s = .next { s with pc := BitVec.ofNat 8 o.val.val.toNat }) ∧
    (¬(0 ≤ o.val.val ∧ o.val.val + 4 ≤ 255) →
      exec (.jmpi q o) s = .next { s with run := .halted .jumpOutOfRange })

/-- INT halts with cause INTERRUPT and changes nothing else, whatever its value (R203). -/
def Obligations.InterruptHalts : Prop :=
  (opcodeMap .int).toNat = 0x22 ∧
  ∀ (q : Req) (o : J) (s : State), GateOpen q s.flags → exec (.int q o) s = .next { s with run := .halted .interrupt }

/-- After an absolute jump that does not halt, the next fetch succeeds (R199, R104). -/
def Obligations.AbsoluteJumpTargetIsFetchable : Prop :=
  ∀ (i : Instr) (s t : State), i.mnemonic = .jmpr ∨ i.mnemonic = .jmpi → GateOpen i.req s.flags → Live s →
    exec i s = .next t → Live t → ∃ w, t.fetch = some w

/-- The pseudo-instructions do what R92 says. -/
def Obligations.PseudoInstructions : Prop :=
  (∀ (q : Req) (s : State), GateOpen q s.flags →
    exec (Pseudo.nop q) s = .next { s with pc := s.pc + 4 } ∧
    exec (Pseudo.halt q) s = .next { s with run := .halted .interrupt } ∧
    (∀ d v : Nat, v ≤ 255 → ∃ t, exec (Pseudo.li q d v) s = .next t ∧ AluDone d v s t) ∧
    (∀ d x : Nat, ∃ t, exec (Pseudo.mov q d x) s = .next t ∧ AluDone d ((s.readReg x).toNat : Int) s t) ∧
    (∀ d : Nat, ∃ t, exec (Pseudo.clr q d) s = .next t ∧ AluDone d 0 s t) ∧
    (∀ off : SignMag, exec (Pseudo.branch q off) s =
      .next { s with pc := BitVec.ofNat 8 (((s.pc.toNat : Int) + off.val) % 256).toNat })) ∧
  (∀ (q : Req) (off : SignMag) (s : State), ¬GateOpen q s.flags →
    exec (Pseudo.branch q off) s = .next { s with pc := s.pc + 4 }) ∧
  (∀ s : State, ∃ t, exec (.add .none ⟨0, 0, 0, 0⟩) s = .next t ∧
    t.flags.z = true ∧ t.flags.g = false ∧ t.flags.c = false)

/-! ### Reset and the host's ports -/

/-- The BLANK reset values, and the first step from them: blank memory halts (R251). -/
def Obligations.BlankResetValues : Prop :=
  (∀ d, State.launch params .blank d = State.reset) ∧
  (∀ r, State.reset.readReg r = 0) ∧ State.reset.pc = 0 ∧ State.reset.flags = ⟨false, false, false, false⟩ ∧
  (∀ a < 255, State.reset.mem.readByte params a = some 0) ∧ State.reset.run = .runnable ∧
  step State.reset = .next { State.reset with run := .halted .unimplemented }

/-- A RANDOM reset has each drawn value and is Runnable (R252). It has the invariant, and every state with the
invariant that has a step is one of its draws: the draw as a function (notes/assumptions/5.md) and the canonical form
of memory (notes/assumptions/13.md) are the model's. -/
def Obligations.RandomResetIsEveryDraw : Prop :=
  (∀ d : Draw, (State.launch params .random d).regs = d.regs ∧ (State.launch params .random d).pc = d.pc ∧
    (State.launch params .random d).flags = d.flags ∧ (State.launch params .random d).run = .runnable ∧
    (State.launch params .random d).Inv ∧
    ∀ a < 255, (State.launch params .random d).mem.readByte params a = some (d.memory a)) ∧
  (∀ s : State, s.Inv → Live s → ∃ d, State.launch params .random d = s)

/-- The register port: a real register keeps what is written and nothing else moves; a write to 0 or to 30 and above
changes nothing, and a read there gives 0 (R21, R22, R39). -/
def Obligations.RegisterPortContract : Prop :=
  ∀ (s : State) (r v : Byte),
    (IsReal r.toNat → (s.portRegWrite r v).portRegRead r = v) ∧
    (¬IsReal r.toNat → s.portRegWrite r v = s ∧ s.portRegRead r = 0) ∧
    (∀ i, i ≠ r → (s.portRegWrite r v).portRegRead i = s.portRegRead i) ∧
    ∃ regs, s.portRegWrite r v = { s with regs := regs }

/-- The memory ports are the primitives of R51 to R54: what they give and change, and that a failing one gives no state
(R40). -/
def Obligations.MemoryPortContract : Prop :=
  (∀ (s : State) (a : Byte), s.portMemRead params a = s.mem.readByte params a.toNat ∧
    s.portMemReadWord params a = s.mem.readWord params a.toNat) ∧
  (∀ (s : State) (a v : Byte), (a.toNat < 255 → ∃ m, s.portMemWrite params a v = some { s with mem := m } ∧
      s.mem.writeByte params a.toNat v = some m ∧
      State.portMemRead params { s with mem := m } a = some v ∧
      ∀ b, b ≠ a → State.portMemRead params { s with mem := m } b = s.portMemRead params b) ∧
    (255 ≤ a.toNat → s.portMemRead params a = none ∧ s.portMemWrite params a v = none)) ∧
  (∀ (s : State) (a : Byte) (w : Word), (a.toNat < 252 → ∃ m, s.portMemWriteWord params a w = some { s with mem := m } ∧
      s.mem.writeWord params a.toNat w = some m ∧
      State.portMemReadWord params { s with mem := m } a = some w) ∧
    (252 ≤ a.toNat → s.portMemReadWord params a = none ∧ s.portMemWriteWord params a w = none))

/-- A loaded instruction is its word at the address and nothing else, and the current instruction of a pc there; out of
range, or with fields too wide, nothing is loaded; the current instruction is the fields of the word at the pc, and at
pc 252 and above there is none (R41, R42). -/
def Obligations.LoadedInstructionIsCurrent : Prop :=
  (∀ (s : State) (a : Byte) (i : Raw), (a.toNat < 252 → i.opcode ≤ 63 → i.operand ≤ 0x3FFFFF →
      ∃ m w, s.portLoadInstruction params a i = some { s with mem := m } ∧ i.toWord = some w ∧
        FetchesWord { s with mem := m, pc := a } w ∧
        (∀ b, b < a.toNat ∨ a.toNat + 4 ≤ b → m.readByte params b = s.mem.readByte params b) ∧
        State.portCurrentInstruction params { s with mem := m, pc := a } = some i) ∧
    ((252 ≤ a.toNat ∨ 63 < i.opcode ∨ 0x3FFFFF < i.operand) → s.portLoadInstruction params a i = none)) ∧
  (∀ (s : State) (w : Word), FetchesWord s w → s.portCurrentInstruction params = some (Raw.ofWord w)) ∧
  (∀ s : State, 252 ≤ s.pc.toNat → s.portCurrentInstruction params = none)

/-- `set_pc` sets the pc alone before the first step of a run, the boot setting it to the entry point, and is refused
from the first step on, whatever other ports are used (R43). The session that knows of the first step is the model's
choice (notes/assumptions/14.md). -/
def Obligations.SetPcOnlyBeforeFirstStep : Prop :=
  (∀ (k : ResetKind) (d : Draw) (a : Byte), (Session.launch params k d).setPc a =
    some { state := { State.launch params k d with pc := a }, stepped := false }) ∧
  (∀ (k : ResetKind) (d : Draw), Session.boot params k d =
    some { state := { State.launch params k d with pc := params.entryPc }, stepped := false }) ∧
  (∀ (h h' : Session) (a : Byte), h.clock = some h' → h'.setPc a = none) ∧
  (∀ (h h' : Session) (port : Port) (a : Byte), h.edit port = some h' →
    ((h'.setPc a).isNone = true ↔ (h.setPc a).isNone = true))

/-- The host's placing of an instruction word: the next step fetches that word, and registers and flags are as they
were. The model's own device (notes/assumptions/15.md), resting on R55 and R104. -/
def Obligations.PlacedWordIsFetchedNext : Prop :=
  ∀ (s : State) (w : Word), Live (s.withFetchWord 32 w.toNat) ∧ (s.withFetchWord 32 w.toNat).fetch = some w ∧
    (s.withFetchWord 32 w.toNat).regs = s.regs ∧ (s.withFetchWord 32 w.toNat).flags = s.flags ∧
    (s.pc.toNat < 252 → (s.withFetchWord 32 w.toNat).pc = s.pc)

/-- A port of R39 to R41 changes registers alone or memory alone: pc, flags, run state and mark stay (R30, R43, R44),
and the invariant is kept (the canonical form: notes/assumptions/13.md). -/
def Obligations.PortsChangeOnlyRegistersOrMemory : Prop :=
  ∀ (s t : State) (p : Port), s.usePort params p = some t →
    t.pc = s.pc ∧ t.flags = s.flags ∧ t.run = s.run ∧ t.fatal = s.fatal ∧
    (t.mem = s.mem ∨ SameRegisters s t) ∧ (s.Inv → t.Inv)

/-- Whatever the host does to a run: a Halted state stays Halted with its cause (R44), the mark stays, L stays and the
other flags change in a clock step alone (R30, R43), and the pc changes in a clock step or by a `set_pc` before the
first step alone (R43). The session is the model's choice (notes/assumptions/14.md). -/
def Obligations.HostCallsKeepTheRun : Prop :=
  ∀ (h h' : Session) (x : HostCall), h.call x = some h' →
    (∀ c, h.state.run = .halted c → h'.state.run = .halted c) ∧
    (∀ r, h.state.fatal = some r → h'.state.fatal = some r) ∧
    h'.state.flags.l = h.state.flags.l ∧
    (h'.state.flags ≠ h.state.flags → x = .clock) ∧
    (h'.state.pc ≠ h.state.pc → x = .clock ∨ (h.stepped = false ∧ x = .setPc h'.state.pc)) ∧
    (h.stepped = true → h'.stepped = true)
end

