-- ==== Sys2Proof/Laws/Decode.lean ====
section
/-! SUPPORT. The small laws of the encoding: each format's fields out of a number and back, the opcode map's inverse
(spec/30_encoding.md). -/

namespace Sys2Proof

theorem bits_lt (n hi lo : Nat) : bits n hi lo < 2 ^ (hi + 1 - lo) := Nat.mod_lt _ (by positivity)

/-! ### Sign and magnitude -/

theorem bool_toNat_beq_one (b : Bool) : (b.toNat == 1) = b := by cases b <;> rfl

theorem SignMag.ofField_toField12 {v : SignMag} (h : v.mag < 2 ^ 11) : SignMag.ofField 12 (v.toField 12) = v := by
  obtain ⟨neg, mag⟩ := v
  simp only at h
  cases neg <;> simp only [SignMag.ofField, SignMag.toField, bit, Bool.toNat_true, Bool.toNat_false, SignMag.mk.injEq] <;>
    refine ⟨?_, by omega⟩ <;> simp <;> omega

theorem SignMag.ofField_toField22 {v : SignMag} (h : v.mag < 2 ^ 21) : SignMag.ofField 22 (v.toField 22) = v := by
  obtain ⟨neg, mag⟩ := v
  simp only at h
  cases neg <;> simp only [SignMag.ofField, SignMag.toField, bit, Bool.toNat_true, Bool.toNat_false, SignMag.mk.injEq] <;>
    refine ⟨?_, by omega⟩ <;> simp <;> omega

theorem SignMag.toField12_lt {v : SignMag} (h : v.mag < 2 ^ 11) : v.toField 12 < 2 ^ 12 := by
  unfold SignMag.toField; cases v.neg <;> simp <;> omega

theorem SignMag.toField22_lt {v : SignMag} (h : v.mag < 2 ^ 21) : v.toField 22 < 2 ^ 22 := by
  unfold SignMag.toField; cases v.neg <;> simp <;> omega

theorem bit_toNat (n k : Nat) : (bit n k).toNat = n / 2 ^ k % 2 := by
  unfold bit
  rcases Nat.mod_two_eq_zero_or_one (n / 2 ^ k) with h | h <;> simp [h]

theorem SignMag.toField12_ofField {n : Nat} (h : n < 2 ^ 12) : (SignMag.ofField 12 n).toField 12 = n := by
  simp only [SignMag.toField, SignMag.ofField, bit_toNat]; omega

theorem SignMag.toField22_ofField {n : Nat} (h : n < 2 ^ 22) : (SignMag.ofField 22 n).toField 22 = n := by
  simp only [SignMag.toField, SignMag.ofField, bit_toNat]; omega

/-! ### Each format: a fitting operand is under 2^22, comes back from its field, and every field gives a fitting operand
that goes back to it -/

theorem Rd.fits {o : Rd} (h : o.wf = true) : o.toField < 2 ^ 22 ∧ Rd.ofField o.toField = o := by
  obtain ⟨d, x, y, u⟩ := o
  simp only [Rd.wf, regOk, Bool.and_eq_true, decide_eq_true_eq] at h
  simp only [Rd.toField, Rd.ofField, bits, Rd.mk.injEq]
  omega

theorem Ri.fits {o : Ri} (h : o.wf = true) : o.toField < 2 ^ 22 ∧ Ri.ofField o.toField = o := by
  obtain ⟨d, x, v⟩ := o
  simp only [Ri.wf, regOk, Bool.and_eq_true, decide_eq_true_eq] at h
  have hv := SignMag.toField12_lt h.2
  have hf : bits (d * 2 ^ 17 + x * 2 ^ 12 + v.toField 12) 11 0 = v.toField 12 := by unfold bits; omega
  simp only [Ri.toField, Ri.ofField, Ri.mk.injEq, hf, SignMag.ofField_toField12 h.2]
  refine ⟨by omega, ?_, ?_, trivial⟩ <;> simp only [bits] <;> omega

theorem Bo.fits {o : Bo} (h : o.wf = true) : o.toField < 2 ^ 22 ∧ Bo.ofField o.toField = o := by
  obtain ⟨t, b, f⟩ := o
  simp only [Bo.wf, regOk, Bool.and_eq_true, decide_eq_true_eq] at h
  simp only [Bo.toField, Bo.ofField, bits, Bo.mk.injEq]
  omega

theorem Bi.fits {o : Bi} (h : o.wf = true) : o.toField < 2 ^ 22 ∧ Bi.ofField o.toField = o := by
  obtain ⟨t, b, x, u⟩ := o
  simp only [Bi.wf, regOk, Bool.and_eq_true, decide_eq_true_eq] at h
  simp only [Bi.toField, Bi.ofField, bits, Bi.mk.injEq]
  omega

theorem J.fits {o : J} (h : o.wf = true) : o.toField < 2 ^ 22 ∧ J.ofField o.toField = o := by
  obtain ⟨v⟩ := o
  simp only [J.wf, decide_eq_true_eq] at h
  have hv := SignMag.toField22_lt h
  have hf : bits (v.toField 22) 21 0 = v.toField 22 := by unfold bits; omega
  simp only [J.toField, J.ofField, hf, SignMag.ofField_toField22 h]
  exact ⟨hv, trivial⟩

theorem JR.fits {o : JR} (h : o.wf = true) : o.toField < 2 ^ 22 ∧ JR.ofField o.toField = o := by
  obtain ⟨d, u⟩ := o
  simp only [JR.wf, regOk, Bool.and_eq_true, decide_eq_true_eq] at h
  simp only [JR.toField, JR.ofField, bits, JR.mk.injEq]
  omega

theorem Rd.covers {p : Nat} (h : p < 2 ^ 22) : (Rd.ofField p).wf = true ∧ (Rd.ofField p).toField = p := by
  simp only [Rd.wf, regOk, Rd.toField, Bool.and_eq_true, decide_eq_true_eq]
  simp only [Rd.ofField, bits]
  omega

theorem Ri.covers {p : Nat} (h : p < 2 ^ 22) : (Ri.ofField p).wf = true ∧ (Ri.ofField p).toField = p := by
  have hf := SignMag.toField12_ofField (n := bits p 11 0) (by unfold bits; omega)
  have hm : (SignMag.ofField 12 (bits p 11 0)).mag < 2 ^ 11 := Nat.mod_lt _ (by positivity)
  simp only [Ri.wf, regOk, Ri.toField, Bool.and_eq_true, decide_eq_true_eq]
  simp only [Ri.ofField, hf]
  refine ⟨⟨⟨?_, ?_⟩, hm⟩, ?_⟩ <;> simp only [bits] <;> omega

theorem Bo.covers {p : Nat} (h : p < 2 ^ 22) : (Bo.ofField p).wf = true ∧ (Bo.ofField p).toField = p := by
  simp only [Bo.wf, regOk, Bo.toField, Bool.and_eq_true, decide_eq_true_eq]
  simp only [Bo.ofField, bits]
  omega

theorem Bi.covers {p : Nat} (h : p < 2 ^ 22) : (Bi.ofField p).wf = true ∧ (Bi.ofField p).toField = p := by
  simp only [Bi.wf, regOk, Bi.toField, Bool.and_eq_true, decide_eq_true_eq]
  simp only [Bi.ofField, bits]
  omega

theorem J.covers {p : Nat} (h : p < 2 ^ 22) : (J.ofField p).wf = true ∧ (J.ofField p).toField = p := by
  have hp : bits p 21 0 = p := by unfold bits; omega
  have hm : (SignMag.ofField 22 p).mag < 2 ^ 21 := Nat.mod_lt _ (by positivity)
  simp only [J.wf, J.toField, decide_eq_true_eq]
  simp only [J.ofField, hp]
  exact ⟨hm, SignMag.toField22_ofField h⟩

theorem JR.covers {p : Nat} (h : p < 2 ^ 22) : (JR.ofField p).wf = true ∧ (JR.ofField p).toField = p := by
  simp only [JR.wf, regOk, JR.toField, Bool.and_eq_true, decide_eq_true_eq]
  simp only [JR.ofField, bits]
  omega

/-! ### The opcode map and its inverse -/

theorem mem_allMnemonics (m : Mnemonic) : m ∈ allMnemonics := by cases m <;> decide

/-- An instruction found for a number holds that number. -/
theorem instructionOf_some {om : OpcodeMap} {n : Nat} {m : Mnemonic} (h : instructionOf om n = some m) :
    (om m).toNat = n := by simpa using List.find?_some h

/-- Under an injective map the number of an instruction finds it (R86: distinct numbers). -/
theorem instructionOf_map {om : OpcodeMap} (hom : Function.Injective om) (m : Mnemonic) :
    instructionOf om (om m).toNat = some m := by
  cases h : instructionOf om (om m).toNat with
  | none => exact absurd (List.find?_eq_none.1 h m (mem_allMnemonics m)) (by simp)
  | some m' => rw [hom (BitVec.eq_of_toNat_eq (instructionOf_some h))]

theorem instructionOf_opcodeMap (m : Mnemonic) : instructionOf opcodeMap (opcodeMap m).toNat = some m := by
  cases m <;> decide

/-- The default map holds 34 distinct numbers (R86). -/
theorem opcodeMap_injective : Function.Injective opcodeMap := fun a b h =>
  Option.some.inj (by rw [← instructionOf_opcodeMap a, ← instructionOf_opcodeMap b, h])

/-! ### The fields of a word -/

theorem Raw.ofWord_opcode_lt (w : Word) : (Raw.ofWord w).opcode < 64 := bits_lt _ 27 22

theorem Raw.ofWord_operand_lt (w : Word) : (Raw.ofWord w).operand < 2 ^ 22 := bits_lt _ 21 0

@[simp] theorem instrOfField_mnemonic (m : Mnemonic) (q : Req) (p : Nat) : (instrOfField m q p).mnemonic = m := by
  cases m <;> rfl

@[simp] theorem instrOfField_req (m : Mnemonic) (q : Req) (p : Nat) : (instrOfField m q p).req = q := by
  cases m <;> rfl

/-- A word decodes to the instruction its opcode names, read from its operand (R106). -/
theorem decodeWith_ok {om : OpcodeMap} {w : Word} {i : Instr} (h : decodeWith om w = .ok i) :
    i = instrOfField i.mnemonic (Raw.ofWord w).req (Raw.ofWord w).operand ∧ i.req = (Raw.ofWord w).req ∧
      (om i.mnemonic).toNat = (Raw.ofWord w).opcode := by
  simp only [decodeWith] at h
  split at h
  · rename_i m hm
    cases h
    simp [instructionOf_some hm]
  · cases h

end Sys2Proof
end

