-- ==== Sys2Proof/Laws/Memory.lean ====
section
/-! SUPPORT. Memory as bytes: read after write, the canonical form kept, equal bytes make equal memories
(spec/20_memory.md). -/

namespace Sys2Proof.Machine

/-! ### Reading after writing -/

theorem Memory.get_insert (a : Nat) (v : Byte) (m : Memory) (h : ∀ p ∈ m, p.1 ≠ a) (b : Nat) :
    (Memory.insert a v m).get b = if b = a then v else m.get b := by
  induction m with
  | nil => simp [Memory.insert, Memory.get]
  | cons p m ih =>
    obtain ⟨k, u⟩ := p
    have hk : k ≠ a := h (k, u) (by simp)
    have ih' := ih fun p hp => h p (by simp [hp])
    simp only [Memory.insert]
    split_ifs with hlt hb hb
    · simp [Memory.get, hb]
    · simp [Memory.get, hb]
    · subst hb; simp [Memory.get, Ne.symm hk, ih']
    · simp [Memory.get, ih', hb]

theorem Memory.get_filter_ne (m : Memory) (a b : Nat) :
    Memory.get (m.filter fun p => p.1 != a) b = if b = a then Memory.unlisted else m.get b := by
  induction m with
  | nil => simp [Memory.get]
  | cons p m ih =>
    obtain ⟨k, u⟩ := p
    by_cases hk : k = a
    · subst hk
      simp only [List.filter_cons, bne_self_eq_false, Bool.false_eq_true, ↓reduceIte, ih, Memory.get]
      split_ifs <;> rfl
    · by_cases hb : b = k
      · subst hb; simp [hk, Memory.get]
      · simp [hk, Memory.get, hb, ih]

/-- Every byte after one byte is set. -/
theorem Memory.get_set (m : Memory) (a b : Nat) (v : Byte) :
    (m.set a v).get b = if b = a then v else m.get b := by
  unfold Memory.set
  split_ifs with hv hb hb
  · simp [Memory.get_filter_ne, hb, hv]
  · simp [Memory.get_filter_ne, hb]
  · rw [Memory.get_insert _ _ _ (by simp)]; simp [hb]
  · rw [Memory.get_insert _ _ _ (by simp)]; simp [hb, Memory.get_filter_ne]

@[simp] theorem Memory.get_set_same (m : Memory) (a : Nat) (v : Byte) : (m.set a v).get a = v := by
  simp [Memory.get_set]

theorem Memory.get_set_other (m : Memory) {a b : Nat} (v : Byte) (h : b ≠ a) : (m.set a v).get b = m.get b := by
  simp [Memory.get_set, h]

/-! ### The canonical form is kept -/

theorem Memory.mem_insert {a : Nat} {v : Byte} {m : Memory} {p : Host.Cell} :
    p ∈ Memory.insert a v m ↔ p = (a, v) ∨ p ∈ m := by
  induction m with
  | nil => simp [Memory.insert]
  | cons q m ih =>
    simp only [Memory.insert]
    split_ifs <;> simp [ih, or_left_comm]

theorem Memory.wf_insert {a : Nat} {v : Byte} {m : Memory} (h : m.wf) (hv : v ≠ Memory.unlisted)
    (ha : ∀ p ∈ m, p.1 ≠ a) : (Memory.insert a v m).wf := by
  refine ⟨?_, fun p hp => (Memory.mem_insert.1 hp).elim (fun e => e ▸ hv) (h.2 p)⟩
  induction m with
  | nil => simp [Memory.insert]
  | cons q m ih =>
    obtain ⟨hq, hm⟩ := List.pairwise_cons.1 h.1
    simp only [Memory.insert]
    split_ifs with hlt
    · refine List.pairwise_cons.2 ⟨fun p hp => ?_, h.1⟩
      rcases List.mem_cons.1 hp with rfl | hp
      · exact hlt
      · exact hlt.trans (hq p hp)
    · refine List.pairwise_cons.2 ⟨fun p hp => ?_, ih ⟨hm, fun p hp => h.2 p (by simp [hp])⟩ fun p hp => ha p (by simp [hp])⟩
      rcases Memory.mem_insert.1 hp with rfl | hp
      · have := ha q (by simp); simp only at *; omega
      · exact hq p hp

theorem Memory.wf_filter {m : Memory} (h : m.wf) (f : Host.Cell → Bool) : Memory.wf (m.filter f) :=
  ⟨h.1.filter f, fun p hp => h.2 p (List.mem_filter.1 hp).1⟩

/-- Setting a byte keeps the canonical form. -/
theorem Memory.wf_set {m : Memory} (h : m.wf) (a : Nat) (v : Byte) : (m.set a v).wf := by
  unfold Memory.set
  split_ifs with hv
  · exact Memory.wf_filter h _
  · exact Memory.wf_insert (Memory.wf_filter h _) hv (by simp)

/-- Setting a byte that exists lists no byte that does not. -/
theorem Memory.below_set {n : Nat} {m : Memory} (h : m.below n) {a : Nat} (ha : a < n) (v : Byte) :
    (m.set a v).below n := by
  have hf : Memory.below n (m.filter fun p => p.1 != a) := fun p hp => h p (List.mem_filter.1 hp).1
  unfold Memory.set
  split_ifs
  · exact hf
  · intro p hp
    rcases Memory.mem_insert.1 hp with rfl | hp
    · exact ha
    · exact hf p hp

/-! ### Bytes and words through the checked accesses -/

theorem Memory.readByte_eq_some {c : Config} {m : Memory} {a : Nat} {v : Byte} :
    m.readByte c a = some v ↔ a < c.memSize ∧ v = m.get a := by
  unfold Memory.readByte
  split_ifs with h <;> simp [h, eq_comm]

theorem Memory.writeByte_eq_some {c : Config} {m m' : Memory} {a : Nat} {v : Byte} :
    m.writeByte c a v = some m' ↔ a < c.memSize ∧ m' = m.set a v := by
  unfold Memory.writeByte
  split_ifs with h <;> simp [h, eq_comm]

/-- A checked byte write keeps the form and the bound. -/
theorem Memory.writeByte_keeps {c : Config} {m m' : Memory} {a : Nat} {v : Byte} (h : m.writeByte c a v = some m')
    (hw : m.wf) (hb : m.below c.memSize) : m'.wf ∧ m'.below c.memSize := by
  obtain ⟨ha, rfl⟩ := Memory.writeByte_eq_some.1 h
  exact ⟨Memory.wf_set hw a v, Memory.below_set hb ha v⟩

/-- When a word can be read, and which word it is (R53). -/
theorem Memory.readWord_eq_some {c : Config} {m : Memory} {a : Nat} {w : Word} :
    m.readWord c a = some w ↔ (∀ k < 4, byteAddr a k < c.memSize) ∧
      w = wordOfBytes (m.get (byteAddr a 0)) (m.get (byteAddr a 1)) (m.get (byteAddr a 2)) (m.get (byteAddr a 3)) := by
  have hall : (∀ k < 4, byteAddr a k < c.memSize) ↔ byteAddr a 0 < c.memSize ∧ byteAddr a 1 < c.memSize ∧
      byteAddr a 2 < c.memSize ∧ byteAddr a 3 < c.memSize := by
    constructor
    · intro h; exact ⟨h 0 (by omega), h 1 (by omega), h 2 (by omega), h 3 (by omega)⟩
    · rintro ⟨h0, h1, h2, h3⟩ k hk; interval_cases k <;> assumption
  rw [hall]
  simp only [Memory.readWord, Memory.readByte, Option.bind_eq_bind, Option.pure_def]
  by_cases h0 : byteAddr a 0 < c.memSize <;> by_cases h1 : byteAddr a 1 < c.memSize <;>
    by_cases h2 : byteAddr a 2 < c.memSize <;> by_cases h3 : byteAddr a 3 < c.memSize <;>
    simp [h0, h1, h2, h3, eq_comm]

/-- A checked word write keeps the form and the bound. -/
theorem Memory.writeWord_keeps {c : Config} {m m' : Memory} {a : Nat} {w : Word} (h : m.writeWord c a w = some m')
    (hw : m.wf) (hb : m.below c.memSize) : m'.wf ∧ m'.below c.memSize := by
  unfold Memory.writeWord at h
  split_ifs at h with hall
  obtain ⟨h0, h1, h2, h3⟩ := hall
  cases h
  exact ⟨Memory.wf_set (Memory.wf_set (Memory.wf_set (Memory.wf_set hw _ _) _ _) _ _) _ _,
    Memory.below_set (Memory.below_set (Memory.below_set (Memory.below_set hb h0 _) h1 _) h2 _) h3 _⟩

/-! ### Equal bytes, equal memories -/

theorem Memory.get_of_lt {m : Memory} {a : Nat} (h : ∀ p ∈ m, a < p.1) : m.get a = Memory.unlisted := by
  induction m with
  | nil => rfl
  | cons p m ih =>
    have := h p (by simp)
    simp [Memory.get, Nat.ne_of_lt this, ih fun q hq => h q (by simp [hq])]

/-- Two canonical memories with the same bytes are the same list. -/
theorem Memory.ext {m m' : Memory} (h : m.wf) (h' : m'.wf) (e : ∀ a, m.get a = m'.get a) : m = m' := by
  induction m generalizing m' with
  | nil =>
    cases m' with
    | nil => rfl
    | cons p m' => exact absurd (e p.1).symm (by simpa [Memory.get] using h'.2 p (by simp))
  | cons p m ih =>
    obtain ⟨hp, hm⟩ := List.pairwise_cons.1 h.1
    have hpv := h.2 p (by simp)
    cases m' with
    | nil => exact absurd (e p.1) (by simpa [Memory.get] using hpv)
    | cons q m' =>
      obtain ⟨hq, hm'⟩ := List.pairwise_cons.1 h'.1
      have hqv := h'.2 q (by simp)
      have hk : p.1 = q.1 := by
        rcases Nat.lt_trichotomy p.1 q.1 with hlt | heq | hlt
        · refine absurd (e p.1) ?_
          rw [Memory.get_of_lt (m := q :: m') (by
            intro r hr
            rcases List.mem_cons.1 hr with rfl | hr
            · exact hlt
            · exact hlt.trans (hq r hr))]
          simpa [Memory.get] using hpv
        · exact heq
        · refine absurd (e q.1).symm ?_
          rw [Memory.get_of_lt (m := p :: m) (by
            intro r hr
            rcases List.mem_cons.1 hr with rfl | hr
            · exact hlt
            · exact hlt.trans (hp r hr))]
          simpa [Memory.get] using hqv
      have hv : p.2 = q.2 := by simpa [Memory.get, hk] using e p.1
      have hpq : p = q := Prod.ext hk hv
      subst hpq
      congr 1
      refine ih ⟨hm, fun r hr => h.2 r (by simp [hr])⟩ ⟨hm', fun r hr => h'.2 r (by simp [hr])⟩ fun a => ?_
      by_cases ha : a = p.1
      · subst ha; rw [Memory.get_of_lt hp, Memory.get_of_lt hq]
      · simpa [Memory.get, ha] using e a

end Sys2Proof.Machine
end

