-- ==== Sys2Proof/Laws/State.lean ====
section
/-! SUPPORT. What each update of the state does to each field, and to reading a register. -/

namespace Sys2Proof.Machine

@[simp] theorem State.setPc_regs (s : State) (p : Byte) : (s.setPc p).regs = s.regs := rfl
@[simp] theorem State.setPc_pc (s : State) (p : Byte) : (s.setPc p).pc = p := rfl
@[simp] theorem State.setPc_flags (s : State) (p : Byte) : (s.setPc p).flags = s.flags := rfl
@[simp] theorem State.setPc_mem (s : State) (p : Byte) : (s.setPc p).mem = s.mem := rfl
@[simp] theorem State.setPc_run (s : State) (p : Byte) : (s.setPc p).run = s.run := rfl
@[simp] theorem State.setPc_fatal (s : State) (p : Byte) : (s.setPc p).fatal = s.fatal := rfl
@[simp] theorem State.setPc_readReg (s : State) (p : Byte) (i : Nat) : (s.setPc p).readReg i = s.readReg i := rfl

@[simp] theorem State.advance_regs (s : State) : (s.advance).regs = s.regs := rfl
@[simp] theorem State.advance_pc (s : State) : (s.advance).pc = s.pc + 4 := rfl
@[simp] theorem State.advance_flags (s : State) : (s.advance).flags = s.flags := rfl
@[simp] theorem State.advance_mem (s : State) : (s.advance).mem = s.mem := rfl
@[simp] theorem State.advance_run (s : State) : (s.advance).run = s.run := rfl
@[simp] theorem State.advance_fatal (s : State) : (s.advance).fatal = s.fatal := rfl
@[simp] theorem State.advance_readReg (s : State) (i : Nat) : (s.advance).readReg i = s.readReg i := rfl

@[simp] theorem State.setFlags_regs (s : State) (f : Flags) : (s.setFlags f).regs = s.regs := rfl
@[simp] theorem State.setFlags_pc (s : State) (f : Flags) : (s.setFlags f).pc = s.pc := rfl
@[simp] theorem State.setFlags_flags (s : State) (f : Flags) : (s.setFlags f).flags = f := rfl
@[simp] theorem State.setFlags_mem (s : State) (f : Flags) : (s.setFlags f).mem = s.mem := rfl
@[simp] theorem State.setFlags_run (s : State) (f : Flags) : (s.setFlags f).run = s.run := rfl
@[simp] theorem State.setFlags_fatal (s : State) (f : Flags) : (s.setFlags f).fatal = s.fatal := rfl
@[simp] theorem State.setFlags_readReg (s : State) (f : Flags) (i : Nat) : (s.setFlags f).readReg i = s.readReg i := rfl

@[simp] theorem State.setMem_regs (s : State) (m : Memory) : (s.setMem m).regs = s.regs := rfl
@[simp] theorem State.setMem_pc (s : State) (m : Memory) : (s.setMem m).pc = s.pc := rfl
@[simp] theorem State.setMem_flags (s : State) (m : Memory) : (s.setMem m).flags = s.flags := rfl
@[simp] theorem State.setMem_mem (s : State) (m : Memory) : (s.setMem m).mem = m := rfl
@[simp] theorem State.setMem_run (s : State) (m : Memory) : (s.setMem m).run = s.run := rfl
@[simp] theorem State.setMem_fatal (s : State) (m : Memory) : (s.setMem m).fatal = s.fatal := rfl
@[simp] theorem State.setMem_readReg (s : State) (m : Memory) (i : Nat) : (s.setMem m).readReg i = s.readReg i := rfl

@[simp] theorem State.raiseHalt_regs (s : State) (c : HaltCause) : (s.raiseHalt c).regs = s.regs := rfl
@[simp] theorem State.raiseHalt_pc (s : State) (c : HaltCause) : (s.raiseHalt c).pc = s.pc := rfl
@[simp] theorem State.raiseHalt_flags (s : State) (c : HaltCause) : (s.raiseHalt c).flags = s.flags := rfl
@[simp] theorem State.raiseHalt_mem (s : State) (c : HaltCause) : (s.raiseHalt c).mem = s.mem := rfl
@[simp] theorem State.raiseHalt_run (s : State) (c : HaltCause) : (s.raiseHalt c).run = .halted c := rfl
@[simp] theorem State.raiseHalt_fatal (s : State) (c : HaltCause) : (s.raiseHalt c).fatal = s.fatal := rfl
@[simp] theorem State.raiseHalt_readReg (s : State) (c : HaltCause) (i : Nat) : (s.raiseHalt c).readReg i = s.readReg i := rfl

@[simp] theorem State.raiseFatal_regs (s : State) (r : FatalReason) : (s.raiseFatal r).regs = s.regs := rfl
@[simp] theorem State.raiseFatal_pc (s : State) (r : FatalReason) : (s.raiseFatal r).pc = s.pc := rfl
@[simp] theorem State.raiseFatal_flags (s : State) (r : FatalReason) : (s.raiseFatal r).flags = s.flags := rfl
@[simp] theorem State.raiseFatal_mem (s : State) (r : FatalReason) : (s.raiseFatal r).mem = s.mem := rfl
@[simp] theorem State.raiseFatal_run (s : State) (r : FatalReason) : (s.raiseFatal r).run = s.run := rfl
@[simp] theorem State.raiseFatal_fatal (s : State) (r : FatalReason) : (s.raiseFatal r).fatal = some r := rfl
@[simp] theorem State.raiseFatal_readReg (s : State) (r : FatalReason) (i : Nat) : (s.raiseFatal r).readReg i = s.readReg i := rfl

@[simp] theorem State.writeReg_pc (s : State) (r : Nat) (v : Byte) : (s.writeReg r v).pc = s.pc := by
  unfold State.writeReg; split <;> rfl
@[simp] theorem State.writeReg_flags (s : State) (r : Nat) (v : Byte) : (s.writeReg r v).flags = s.flags := by
  unfold State.writeReg; split <;> rfl
@[simp] theorem State.writeReg_mem (s : State) (r : Nat) (v : Byte) : (s.writeReg r v).mem = s.mem := by
  unfold State.writeReg; split <;> rfl
@[simp] theorem State.writeReg_run (s : State) (r : Nat) (v : Byte) : (s.writeReg r v).run = s.run := by
  unfold State.writeReg; split <;> rfl
@[simp] theorem State.writeReg_fatal (s : State) (r : Nat) (v : Byte) : (s.writeReg r v).fatal = s.fatal := by
  unfold State.writeReg; split <;> rfl

/-- A real register reads what was written to it (R22). -/
theorem State.readReg_writeReg_same (s : State) {r : Nat} (v : Byte) (h : 1 ≤ r ∧ r ≤ 29) :
    (s.writeReg r v).readReg r = v := by
  simp [State.readReg, State.writeReg, h]

/-- A write to one register leaves every other as it was (R22). -/
theorem State.readReg_writeReg_other (s : State) {r i : Nat} (v : Byte) (h : i ≠ r) :
    (s.writeReg r v).readReg i = s.readReg i := by
  unfold State.readReg State.writeReg
  split_ifs with hi hr
  · exact Vector.getElem_set_ne (regPlace_lt hr) (regPlace_lt hi) (by simp only [gprLo, gprHi] at *; omega)
  all_goals rfl

/-- A black hole reads 0 (R21). -/
theorem State.readReg_blackHole (s : State) {r : Nat} (h : ¬(1 ≤ r ∧ r ≤ 29)) : s.readReg r = 0 := by
  simp only [State.readReg, gprLo, gprHi, dif_neg h]

/-- A write to a black hole changes nothing (R22). -/
theorem State.writeReg_blackHole (s : State) {r : Nat} (v : Byte) (h : ¬(1 ≤ r ∧ r ≤ 29)) : s.writeReg r v = s := by
  simp only [State.writeReg, gprLo, gprHi, dif_neg h]

/-- What reading register `i` gives after a write of register `r`. -/
theorem State.readReg_writeReg (s : State) (r i : Nat) (v : Byte) :
    (s.writeReg r v).readReg i = if i = r ∧ 1 ≤ r ∧ r ≤ 29 then v else s.readReg i := by
  by_cases h : 1 ≤ r ∧ r ≤ 29
  · by_cases hi : i = r
    · subst hi; simp [s.readReg_writeReg_same v h, h]
    · simp [s.readReg_writeReg_other v hi, hi]
  · simp [s.writeReg_blackHole v h, h]

/-- Two register files that read alike at every index are equal. -/
theorem State.regs_ext {s t : State} (h : ∀ r, s.readReg r = t.readReg r) : s.regs = t.regs := by
  apply Vector.ext
  intro k hk
  have hr : gprLo ≤ k + 1 ∧ k + 1 ≤ gprHi := by simp only [gprLo, gprHi]; omega
  simpa [State.readReg, hr] using h (k + 1)

end Sys2Proof.Machine
end

