-- ==== Sys2Proof/Laws/Effect.lean ====
section
/-! SUPPORT. What each shared operation can do, once: the gate, the ALU, the load and store loops, the jumps; the
shape of `exec`; the cases of a step. -/

namespace Sys2Proof.Machine

/-! ### The gate -/

theorem gate_eq_true {q : Req} {f : Flags} :
    gate q f = true ↔ (q.c = true → f.c = true) ∧ (q.l = true → f.l = true) ∧ (q.z = true → f.z = true) ∧
      (q.g = true → f.g = true) := by
  obtain ⟨c, l, z, g⟩ := q
  obtain ⟨fc, fz, fg, fl⟩ := f
  cases c <;> cases l <;> cases z <;> cases g <;> simp [gate, and_assoc]

theorem gated_open {q : Req} {s t : State} (h : gate q s.flags = true) : gated q s t = t := by simp [gated, h]

theorem gated_shut {q : Req} {s t : State} (h : gate q s.flags = false) : gated q s t = s.advance := by simp [gated, h]

theorem gated_cases (q : Req) (s t : State) :
    (gate q s.flags = true ∧ gated q s t = t) ∨ (gate q s.flags = false ∧ gated q s t = s.advance) := by
  cases h : gate q s.flags
  · exact .inr ⟨rfl, gated_shut h⟩
  · exact .inl ⟨rfl, gated_open h⟩

/-! ### The shape of `exec` -/

/-- What an instruction does once gated in. -/
def effect : Instr → State → State
  | .shl _ o, s => aluRd params .shl o s
  | .shr _ o, s => aluRd params .shr o s
  | .and _ o, s => aluRd params .and o s
  | .or _ o, s => aluRd params .or o s
  | .xor _ o, s => aluRd params .xor o s
  | .not _ o, s => aluRd params .not o s
  | .add _ o, s => aluRd params .add o s
  | .sub _ o, s => aluRd params .sub o s
  | .mul _ o, s => aluRd params .mul o s
  | .shli _ o, s => aluRi params .shl o s
  | .shri _ o, s => aluRi params .shr o s
  | .andi _ o, s => aluRi params .and o s
  | .ori _ o, s => aluRi params .or o s
  | .xori _ o, s => aluRi params .xor o s
  | .noti _ o, s => aluRi params .not o s
  | .addi _ o, s => aluRi params .add o s
  | .subi _ o, s => aluRi params .sub o s
  | .muli _ o, s => aluRi params .mul o s
  | .ld8 _ o, s => loadBo params 1 o s
  | .ld16 _ o, s => loadBo params 2 o s
  | .ld32 _ o, s => loadBo params 4 o s
  | .st8 _ o, s => storeBo params 1 o s
  | .st16 _ o, s => storeBo params 2 o s
  | .st32 _ o, s => storeBo params 4 o s
  | .ld8x _ o, s => loadBi params 1 o s
  | .ld16x _ o, s => loadBi params 2 o s
  | .ld32x _ o, s => loadBi params 4 o s
  | .st8x _ o, s => storeBi params 1 o s
  | .st16x _ o, s => storeBi params 2 o s
  | .st32x _ o, s => storeBi params 4 o s
  | .jmp _ o, s => jumpRelative o.val.val s
  | .jmpr _ o, s => jumpAbsolute params (s.readReg o.dest).toNat s
  | .jmpi _ o, s => jumpAbsolute params o.val.val s
  | .int _ _, s => s.raiseHalt .interrupt

/-- `exec` always answers a next state: the gated effect. -/
theorem exec_eq (i : Instr) (s : State) : exec i s = .next (gated i.req s (effect i s)) := by cases i <;> rfl

theorem exec_open {i : Instr} {s : State} (h : gate i.req s.flags = true) : exec i s = .next (effect i s) := by
  rw [exec_eq, gated_open h]

theorem exec_shut {i : Instr} {s : State} (h : gate i.req s.flags = false) : exec i s = .next s.advance := by
  rw [exec_eq, gated_shut h]

/-- Which shared operation each instruction is, with its operand: the case split to make once. -/
theorem effect_cases (i : Instr) (s : State) :
    (∃ op o, i.operand = .rd o ∧ effect i s = aluRd params op o s) ∨
    (∃ op o, i.operand = .ri o ∧ effect i s = aluRi params op o s) ∨
    (∃ n ≤ 4, ∃ o, i.mnemonic.isLoad = true ∧ i.operand = .bo o ∧ effect i s = loadBo params n o s) ∨
    (∃ n ≤ 4, ∃ o, i.mnemonic.isLoad = true ∧ i.operand = .bi o ∧ effect i s = loadBi params n o s) ∨
    (∃ n ≤ 4, ∃ o, i.mnemonic.isStore = true ∧ i.operand = .bo o ∧ effect i s = storeBo params n o s) ∨
    (∃ n ≤ 4, ∃ o, i.mnemonic.isStore = true ∧ i.operand = .bi o ∧ effect i s = storeBi params n o s) ∨
    (∃ q o, i = .jmp q o ∧ effect i s = jumpRelative o.val.val s) ∨
    (∃ q o, i = .jmpr q o ∧ effect i s = jumpAbsolute params (s.readReg o.dest).toNat s) ∨
    (∃ q o, i = .jmpi q o ∧ effect i s = jumpAbsolute params o.val.val s) ∨
    (∃ q o, i = .int q o ∧ effect i s = s.raiseHalt .interrupt) := by
  cases i with
  | shl | shr | and | or | xor | not | add | sub | mul => exact .inl ⟨_, _, rfl, rfl⟩
  | shli | shri | andi | ori | xori | noti | addi | subi | muli => exact .inr (.inl ⟨_, _, rfl, rfl⟩)
  | ld8 | ld16 | ld32 => exact .inr (.inr (.inl ⟨_, by decide, _, rfl, rfl, rfl⟩))
  | ld8x | ld16x | ld32x => exact .inr (.inr (.inr (.inl ⟨_, by decide, _, rfl, rfl, rfl⟩)))
  | st8 | st16 | st32 => exact .inr (.inr (.inr (.inr (.inl ⟨_, by decide, _, rfl, rfl, rfl⟩))))
  | st8x | st16x | st32x => exact .inr (.inr (.inr (.inr (.inr (.inl ⟨_, by decide, _, rfl, rfl, rfl⟩)))))
  | jmp => exact .inr (.inr (.inr (.inr (.inr (.inr (.inl ⟨_, _, rfl, rfl⟩))))))
  | jmpr => exact .inr (.inr (.inr (.inr (.inr (.inr (.inr (.inl ⟨_, _, rfl, rfl⟩)))))))
  | jmpi => exact .inr (.inr (.inr (.inr (.inr (.inr (.inr (.inr (.inl ⟨_, _, rfl, rfl⟩))))))))
  | int => exact .inr (.inr (.inr (.inr (.inr (.inr (.inr (.inr (.inr ⟨_, _, rfl, rfl⟩))))))))

/-! ### The ALU -/

section Alu
variable (c : Config) (op : AluOp) (dest a b : Nat) (s : State)

@[simp] theorem aluWriteBack_pc : (aluWriteBack c op dest a b s).pc = s.pc + 4 := by simp [aluWriteBack]
@[simp] theorem aluWriteBack_flags :
    (aluWriteBack c op dest a b s).flags = aluFlags c.shiftWrap op a b s.flags := by simp [aluWriteBack]
@[simp] theorem aluWriteBack_mem : (aluWriteBack c op dest a b s).mem = s.mem := by simp [aluWriteBack]
@[simp] theorem aluWriteBack_run : (aluWriteBack c op dest a b s).run = s.run := by simp [aluWriteBack]
@[simp] theorem aluWriteBack_fatal : (aluWriteBack c op dest a b s).fatal = s.fatal := by simp [aluWriteBack]
@[simp] theorem aluWriteBack_readReg (i : Nat) : (aluWriteBack c op dest a b s).readReg i =
    if i = dest ∧ 1 ≤ dest ∧ dest ≤ 29 then resultByte c.shiftWrap op a b else s.readReg i := by
  simp [aluWriteBack, State.readReg_writeReg]

end Alu

/-- An Ri instruction either writes its result back or only sets the Fatal mark (R121). -/
theorem aluRi_cases (c : Config) (op : AluOp) (o : Ri) (s : State) :
    (riLegal c op (s.readReg o.x).toNat o.imm.val = true ∧
      aluRi c op o s = aluWriteBack c op o.dest (s.readReg o.x).toNat o.imm.val.toNat s) ∨
    (riLegal c op (s.readReg o.x).toNat o.imm.val = false ∧ aluRi c op o s = s.raiseFatal .riImmediate) := by
  unfold aluRi
  cases riLegal c op (s.readReg o.x).toNat o.imm.val <;> simp

/-! ### The load loop -/

/-- The first `n` bytes from byte `k` on, copied with no check. -/
def copiedIn (ea : Byte) (target : Nat) : (n k : Nat) → State → State
  | 0, _, s => s
  | n + 1, k, s => copiedIn ea target n (k + 1) (s.writeReg (target + k) (s.mem.get (byteAddr ea.toNat k)))

section CopiedIn
variable (ea : Byte) (target : Nat)

@[simp] theorem copiedIn_pc (n k : Nat) (s : State) : (copiedIn ea target n k s).pc = s.pc := by
  induction n generalizing k s with
  | zero => rfl
  | succ n ih => simp [copiedIn, ih]
@[simp] theorem copiedIn_flags (n k : Nat) (s : State) : (copiedIn ea target n k s).flags = s.flags := by
  induction n generalizing k s with
  | zero => rfl
  | succ n ih => simp [copiedIn, ih]
@[simp] theorem copiedIn_mem (n k : Nat) (s : State) : (copiedIn ea target n k s).mem = s.mem := by
  induction n generalizing k s with
  | zero => rfl
  | succ n ih => simp [copiedIn, ih]
@[simp] theorem copiedIn_run (n k : Nat) (s : State) : (copiedIn ea target n k s).run = s.run := by
  induction n generalizing k s with
  | zero => rfl
  | succ n ih => simp [copiedIn, ih]
@[simp] theorem copiedIn_fatal (n k : Nat) (s : State) : (copiedIn ea target n k s).fatal = s.fatal := by
  induction n generalizing k s with
  | zero => rfl
  | succ n ih => simp [copiedIn, ih]

/-- Which register holds what after the copies: byte `r - target` for a real register of the range, else as before. -/
theorem copiedIn_readReg (n k : Nat) (s : State) (r : Nat) : (copiedIn ea target n k s).readReg r =
    if target + k ≤ r ∧ r < target + k + n ∧ 1 ≤ r ∧ r ≤ 29 then s.mem.get (byteAddr ea.toNat (r - target))
    else s.readReg r := by
  induction n generalizing k s with
  | zero => simp only [copiedIn]; rw [if_neg (by omega)]
  | succ n ih =>
    simp only [copiedIn, ih, State.writeReg_mem, State.readReg_writeReg]
    by_cases hr : r = target + k
    · subst hr
      rw [if_neg (by omega)]
      by_cases hreal : 1 ≤ target + k ∧ target + k ≤ 29
      · rw [if_pos ⟨rfl, hreal⟩, if_pos (by omega), Nat.add_sub_cancel_left]
      · rw [if_neg (by tauto), if_neg (by omega)]
    · by_cases hin : target + (k + 1) ≤ r ∧ r < target + (k + 1) + n ∧ 1 ≤ r ∧ r ≤ 29
      · rw [if_pos hin, if_pos (by omega)]
      · rw [if_neg hin, if_neg (by tauto), if_neg (by omega)]

end CopiedIn

/-- Everything a load loop can do: some first `j` bytes pass both checks and are copied, and then it completes, or
halts at byte `j` on the register check, or on the address check (R173, R175, R176). -/
theorem loadBytes_cases (c : Config) (ea : Byte) (target n k : Nat) (s : State) :
    ∃ j ≤ n, (∀ i < j, target + (k + i) < c.copyRegLimit ∧ byteAddr ea.toNat (k + i) < c.memSize) ∧
      ((j = n ∧ loadBytes c ea target n k s = (copiedIn ea target j k s).advance) ∨
       (j < n ∧ c.copyRegLimit ≤ target + (k + j) ∧
          loadBytes c ea target n k s = (copiedIn ea target j k s).raiseHalt .copyRegInvalid) ∨
       (j < n ∧ target + (k + j) < c.copyRegLimit ∧ c.memSize ≤ byteAddr ea.toNat (k + j) ∧
          loadBytes c ea target n k s = (copiedIn ea target j k s).raiseHalt .memOutOfRange)) := by
  induction n generalizing k s with
  | zero => exact ⟨0, le_rfl, by simp, .inl ⟨rfl, rfl⟩⟩
  | succ n ih =>
    by_cases hreg : c.copyRegLimit ≤ target + k
    · exact ⟨0, by omega, by simp, .inr (.inl ⟨by omega, by simpa using hreg, by simp [loadBytes, hreg, copiedIn]⟩)⟩
    by_cases hmem : byteAddr ea.toNat k < c.memSize
    · obtain ⟨j, hj, hok, hres⟩ := ih (k + 1) (s.writeReg (target + k) (s.mem.get (byteAddr ea.toNat k)))
      have hstep : loadBytes c ea target (n + 1) k s =
          loadBytes c ea target n (k + 1) (s.writeReg (target + k) (s.mem.get (byteAddr ea.toNat k))) := by
        simp [loadBytes, hreg, Memory.readByte, hmem]
      refine ⟨j + 1, by omega, fun i hi => ?_, ?_⟩
      · cases i with
        | zero => exact ⟨by omega, hmem⟩
        | succ i => have := hok i (by omega); rwa [Nat.add_right_comm, Nat.add_assoc] at this
      · rw [hstep, show k + (j + 1) = k + 1 + j by omega]
        simp only [copiedIn]
        simpa using hres
    · exact ⟨0, by omega, by simp, .inr (.inr ⟨by omega, by simpa using hreg, by simpa using hmem,
        by simp [loadBytes, hreg, Memory.readByte, hmem, copiedIn]⟩)⟩

/-! ### The store loop -/

/-- The memory after `n` bytes from byte `k` on are stored with no check. -/
def storedOut (ea : Byte) (target : Nat) (s : State) : (n k : Nat) → Memory → Memory
  | 0, _, m => m
  | n + 1, k, m => storedOut ea target s n (k + 1) (m.set (byteAddr ea.toNat k) (s.readReg (target + k)))

/-- A byte outside the stored ones reads as before. -/
theorem storedOut_get_other (ea : Byte) (target : Nat) (s : State) (n k : Nat) (m : Memory) (a : Nat)
    (h : ∀ i < n, a ≠ byteAddr ea.toNat (k + i)) : (storedOut ea target s n k m).get a = m.get a := by
  induction n generalizing k m with
  | zero => rfl
  | succ n ih =>
    rw [storedOut, ih]
    · exact Memory.get_set_other _ _ (by simpa using h 0 (by omega))
    · intro i hi; have := h (i + 1) (by omega); rwa [show k + 1 + i = k + (i + 1) by omega]

/-- A stored byte reads as its register. -/
theorem storedOut_get_stored (ea : Byte) (target : Nat) (s : State) (n k : Nat) (m : Memory) (i : Nat) (hi : i < n)
    (hn : k + n ≤ 256) : (storedOut ea target s n k m).get (byteAddr ea.toNat (k + i)) = s.readReg (target + (k + i)) := by
  induction n generalizing k m i with
  | zero => omega
  | succ n ih =>
    rw [storedOut]
    cases i with
    | zero =>
      rw [storedOut_get_other]
      · simp
      · intro j hj; unfold byteAddr; have := ea.isLt; omega
    | succ i =>
      have := ih (k + 1) (m.set (byteAddr ea.toNat k) (s.readReg (target + k))) i (by omega) (by omega)
      rwa [show k + 1 + i = k + (i + 1) by omega] at this

theorem storedOut_wf (ea : Byte) (target : Nat) (s : State) (n k : Nat) (m : Memory) (h : m.wf) :
    (storedOut ea target s n k m).wf := by
  induction n generalizing k m with
  | zero => exact h
  | succ n ih => exact ih _ _ (Memory.wf_set h _ _)

theorem storedOut_below (ea : Byte) (target : Nat) (s : State) (b n k : Nat) (m : Memory) (h : m.below b)
    (ha : ∀ i < n, byteAddr ea.toNat (k + i) < b) : (storedOut ea target s n k m).below b := by
  induction n generalizing k m with
  | zero => exact h
  | succ n ih =>
    refine ih _ _ (Memory.below_set h (by simpa using ha 0 (by omega)) _) fun i hi => ?_
    have := ha (i + 1) (by omega)
    rwa [show k + 1 + i = k + (i + 1) by omega]

theorem setMem_setMem (s : State) (m m' : Memory) : (s.setMem m).setMem m' = s.setMem m' := rfl

/-- The bytes stored depend on the state's registers alone. -/
theorem storedOut_setMem (ea : Byte) (target : Nat) (s : State) (m0 : Memory) (n k : Nat) (m : Memory) :
    storedOut ea target (s.setMem m0) n k m = storedOut ea target s n k m := by
  induction n generalizing k m with
  | zero => rfl
  | succ n ih => simp [storedOut, ih]

/-- Everything a store loop can do: some first `j` bytes pass both checks and are stored, and then it completes, or
halts at byte `j` on the register check, or on the address check (R174, R175, R176). -/
theorem storeBytes_cases (c : Config) (ea : Byte) (target n k : Nat) (s : State) :
    ∃ j ≤ n, (∀ i < j, target + (k + i) < c.copyRegLimit ∧ byteAddr ea.toNat (k + i) < c.memSize) ∧
      ((j = n ∧ storeBytes c ea target n k s = (s.setMem (storedOut ea target s j k s.mem)).advance) ∨
       (j < n ∧ c.copyRegLimit ≤ target + (k + j) ∧ storeBytes c ea target n k s =
          (s.setMem (storedOut ea target s j k s.mem)).raiseHalt .copyRegInvalid) ∨
       (j < n ∧ target + (k + j) < c.copyRegLimit ∧ c.memSize ≤ byteAddr ea.toNat (k + j) ∧
          storeBytes c ea target n k s =
          (s.setMem (storedOut ea target s j k s.mem)).raiseHalt .memOutOfRange)) := by
  induction n generalizing k s with
  | zero => exact ⟨0, le_rfl, by simp, .inl ⟨rfl, rfl⟩⟩
  | succ n ih =>
    by_cases hreg : c.copyRegLimit ≤ target + k
    · exact ⟨0, by omega, by simp, .inr (.inl ⟨by omega, by simpa using hreg, by simp [storeBytes, hreg, storedOut]; rfl⟩)⟩
    by_cases hmem : byteAddr ea.toNat k < c.memSize
    · obtain ⟨j, hj, hok, hres⟩ := ih (k + 1) (s.setMem (s.mem.set (byteAddr ea.toNat k) (s.readReg (target + k))))
      have hstep : storeBytes c ea target (n + 1) k s =
          storeBytes c ea target n (k + 1) (s.setMem (s.mem.set (byteAddr ea.toNat k) (s.readReg (target + k)))) := by
        simp [storeBytes, hreg, Memory.writeByte, hmem]
      refine ⟨j + 1, by omega, fun i hi => ?_, ?_⟩
      · cases i with
        | zero => exact ⟨by omega, hmem⟩
        | succ i => have := hok i (by omega); rwa [Nat.add_right_comm, Nat.add_assoc] at this
      · rw [hstep, show k + (j + 1) = k + 1 + j by omega]
        simp only [State.setMem_mem, storedOut_setMem, setMem_setMem] at hres
        simp only [storedOut]
        simpa using hres
    · exact ⟨0, by omega, by simp, .inr (.inr ⟨by omega, by simpa using hreg, by simpa using hmem,
        by simp [storeBytes, hreg, Memory.writeByte, hmem, storedOut]; rfl⟩)⟩

/-! ### The jumps -/

theorem jumpAbsolute_cases (c : Config) (t : Int) (s : State) :
    (0 ≤ t ∧ t + 4 ≤ c.memSize ∧ jumpAbsolute c t s = s.setPc (BitVec.ofInt 8 t)) ∨
    (¬(0 ≤ t ∧ t + 4 ≤ c.memSize) ∧ jumpAbsolute c t s = s.raiseHalt .jumpOutOfRange) := by
  unfold jumpAbsolute validTarget
  by_cases h : 0 ≤ t ∧ t + 4 ≤ c.memSize
  · exact .inl ⟨h.1, h.2, by simp [h]⟩
  · refine .inr ⟨h, ?_⟩
    rw [if_neg]
    simpa using h

/-! ### A step -/

theorem live_iff {s : State} : s.live = true ↔ s.run = .runnable ∧ s.fatal = none := by simp [State.live]

theorem step_of_live {s : State} (h : s.live = true) : step s = clock s := by
  obtain ⟨hr, hf⟩ := live_iff.1 h
  simp [step, clockOrStop, hr, hf]

/-- Everything a step that answers a next state can be (R103). -/
theorem step_cases {s t : State} (h : step s = .next t) : s.live = true ∧
    ((s.fetch = none ∧ t = s.raiseFatal .fetchOutOfRange) ∨
     (∃ w i, s.fetch = some w ∧ decode w = .ok i ∧ exec i s = .next t) ∨
     (∃ w e, s.fetch = some w ∧ decode w = .error e ∧
        t = gated (Raw.ofWord w).req s (s.raiseHalt .unimplemented))) := by
  have hlive : s.live = true := by
    unfold step clockOrStop at h
    rw [live_iff]
    split at h
    · cases h
    · cases h
    · rename_i hf hr; exact ⟨hr, hf⟩
  refine ⟨hlive, ?_⟩
  rw [step_of_live hlive, clock] at h
  split at h
  · rename_i hf; exact .inl ⟨hf, by cases h; rfl⟩
  · rename_i w hf
    unfold runWord at h
    split at h
    · rename_i i hd; exact .inr (.inl ⟨w, i, hf, hd, h⟩)
    · rename_i e hd; exact .inr (.inr ⟨w, e, hf, hd, by cases h; rfl⟩)

end Sys2Proof.Machine
end

