-- ==== Sys2Proof/Laws/PerInstr.lean ====
section
/-! SUPPORT. The laws of the encoding, one lemma per constructor of Instr. -/

namespace Sys2Proof.Laws

/-- The operand field of a well-formed instruction fits the 22 bits of R71. -/
def OperandFits.Statement (i : Instr) : Prop := i.wf = true → i.operand.toField < 2 ^ 22

/-- A well-formed instruction is read back from its name, request bits and operand field (R75 to R80). -/
def Rebuilds.Statement (i : Instr) : Prop := i.wf = true → instrOfField i.mnemonic i.req i.operand.toField = i

theorem OperandFits.shl (q : Req) (o : Rd) : OperandFits.Statement (.shl q o) := fun h => (Rd.fits h).1
theorem OperandFits.shr (q : Req) (o : Rd) : OperandFits.Statement (.shr q o) := fun h => (Rd.fits h).1
theorem OperandFits.and (q : Req) (o : Rd) : OperandFits.Statement (.and q o) := fun h => (Rd.fits h).1
theorem OperandFits.or (q : Req) (o : Rd) : OperandFits.Statement (.or q o) := fun h => (Rd.fits h).1
theorem OperandFits.xor (q : Req) (o : Rd) : OperandFits.Statement (.xor q o) := fun h => (Rd.fits h).1
theorem OperandFits.not (q : Req) (o : Rd) : OperandFits.Statement (.not q o) := fun h => (Rd.fits h).1
theorem OperandFits.add (q : Req) (o : Rd) : OperandFits.Statement (.add q o) := fun h => (Rd.fits h).1
theorem OperandFits.sub (q : Req) (o : Rd) : OperandFits.Statement (.sub q o) := fun h => (Rd.fits h).1
theorem OperandFits.mul (q : Req) (o : Rd) : OperandFits.Statement (.mul q o) := fun h => (Rd.fits h).1
theorem OperandFits.shli (q : Req) (o : Ri) : OperandFits.Statement (.shli q o) := fun h => (Ri.fits h).1
theorem OperandFits.shri (q : Req) (o : Ri) : OperandFits.Statement (.shri q o) := fun h => (Ri.fits h).1
theorem OperandFits.andi (q : Req) (o : Ri) : OperandFits.Statement (.andi q o) := fun h => (Ri.fits h).1
theorem OperandFits.ori (q : Req) (o : Ri) : OperandFits.Statement (.ori q o) := fun h => (Ri.fits h).1
theorem OperandFits.xori (q : Req) (o : Ri) : OperandFits.Statement (.xori q o) := fun h => (Ri.fits h).1
theorem OperandFits.noti (q : Req) (o : Ri) : OperandFits.Statement (.noti q o) := fun h => (Ri.fits h).1
theorem OperandFits.addi (q : Req) (o : Ri) : OperandFits.Statement (.addi q o) := fun h => (Ri.fits h).1
theorem OperandFits.subi (q : Req) (o : Ri) : OperandFits.Statement (.subi q o) := fun h => (Ri.fits h).1
theorem OperandFits.muli (q : Req) (o : Ri) : OperandFits.Statement (.muli q o) := fun h => (Ri.fits h).1
theorem OperandFits.ld8 (q : Req) (o : Bo) : OperandFits.Statement (.ld8 q o) := fun h => (Bo.fits h).1
theorem OperandFits.ld16 (q : Req) (o : Bo) : OperandFits.Statement (.ld16 q o) := fun h => (Bo.fits h).1
theorem OperandFits.ld32 (q : Req) (o : Bo) : OperandFits.Statement (.ld32 q o) := fun h => (Bo.fits h).1
theorem OperandFits.st8 (q : Req) (o : Bo) : OperandFits.Statement (.st8 q o) := fun h => (Bo.fits h).1
theorem OperandFits.st16 (q : Req) (o : Bo) : OperandFits.Statement (.st16 q o) := fun h => (Bo.fits h).1
theorem OperandFits.st32 (q : Req) (o : Bo) : OperandFits.Statement (.st32 q o) := fun h => (Bo.fits h).1
theorem OperandFits.ld8x (q : Req) (o : Bi) : OperandFits.Statement (.ld8x q o) := fun h => (Bi.fits h).1
theorem OperandFits.ld16x (q : Req) (o : Bi) : OperandFits.Statement (.ld16x q o) := fun h => (Bi.fits h).1
theorem OperandFits.ld32x (q : Req) (o : Bi) : OperandFits.Statement (.ld32x q o) := fun h => (Bi.fits h).1
theorem OperandFits.st8x (q : Req) (o : Bi) : OperandFits.Statement (.st8x q o) := fun h => (Bi.fits h).1
theorem OperandFits.st16x (q : Req) (o : Bi) : OperandFits.Statement (.st16x q o) := fun h => (Bi.fits h).1
theorem OperandFits.st32x (q : Req) (o : Bi) : OperandFits.Statement (.st32x q o) := fun h => (Bi.fits h).1
theorem OperandFits.jmp (q : Req) (o : J) : OperandFits.Statement (.jmp q o) := fun h => (J.fits h).1
theorem OperandFits.jmpr (q : Req) (o : JR) : OperandFits.Statement (.jmpr q o) := fun h => (JR.fits h).1
theorem OperandFits.jmpi (q : Req) (o : J) : OperandFits.Statement (.jmpi q o) := fun h => (J.fits h).1
theorem OperandFits.int (q : Req) (o : J) : OperandFits.Statement (.int q o) := fun h => (J.fits h).1

theorem Rebuilds.shl (q : Req) (o : Rd) : Rebuilds.Statement (.shl q o) := fun h =>
  congrArg (Instr.shl q) (Rd.fits h).2
theorem Rebuilds.shr (q : Req) (o : Rd) : Rebuilds.Statement (.shr q o) := fun h =>
  congrArg (Instr.shr q) (Rd.fits h).2
theorem Rebuilds.and (q : Req) (o : Rd) : Rebuilds.Statement (.and q o) := fun h =>
  congrArg (Instr.and q) (Rd.fits h).2
theorem Rebuilds.or (q : Req) (o : Rd) : Rebuilds.Statement (.or q o) := fun h =>
  congrArg (Instr.or q) (Rd.fits h).2
theorem Rebuilds.xor (q : Req) (o : Rd) : Rebuilds.Statement (.xor q o) := fun h =>
  congrArg (Instr.xor q) (Rd.fits h).2
theorem Rebuilds.not (q : Req) (o : Rd) : Rebuilds.Statement (.not q o) := fun h =>
  congrArg (Instr.not q) (Rd.fits h).2
theorem Rebuilds.add (q : Req) (o : Rd) : Rebuilds.Statement (.add q o) := fun h =>
  congrArg (Instr.add q) (Rd.fits h).2
theorem Rebuilds.sub (q : Req) (o : Rd) : Rebuilds.Statement (.sub q o) := fun h =>
  congrArg (Instr.sub q) (Rd.fits h).2
theorem Rebuilds.mul (q : Req) (o : Rd) : Rebuilds.Statement (.mul q o) := fun h =>
  congrArg (Instr.mul q) (Rd.fits h).2
theorem Rebuilds.shli (q : Req) (o : Ri) : Rebuilds.Statement (.shli q o) := fun h =>
  congrArg (Instr.shli q) (Ri.fits h).2
theorem Rebuilds.shri (q : Req) (o : Ri) : Rebuilds.Statement (.shri q o) := fun h =>
  congrArg (Instr.shri q) (Ri.fits h).2
theorem Rebuilds.andi (q : Req) (o : Ri) : Rebuilds.Statement (.andi q o) := fun h =>
  congrArg (Instr.andi q) (Ri.fits h).2
theorem Rebuilds.ori (q : Req) (o : Ri) : Rebuilds.Statement (.ori q o) := fun h =>
  congrArg (Instr.ori q) (Ri.fits h).2
theorem Rebuilds.xori (q : Req) (o : Ri) : Rebuilds.Statement (.xori q o) := fun h =>
  congrArg (Instr.xori q) (Ri.fits h).2
theorem Rebuilds.noti (q : Req) (o : Ri) : Rebuilds.Statement (.noti q o) := fun h =>
  congrArg (Instr.noti q) (Ri.fits h).2
theorem Rebuilds.addi (q : Req) (o : Ri) : Rebuilds.Statement (.addi q o) := fun h =>
  congrArg (Instr.addi q) (Ri.fits h).2
theorem Rebuilds.subi (q : Req) (o : Ri) : Rebuilds.Statement (.subi q o) := fun h =>
  congrArg (Instr.subi q) (Ri.fits h).2
theorem Rebuilds.muli (q : Req) (o : Ri) : Rebuilds.Statement (.muli q o) := fun h =>
  congrArg (Instr.muli q) (Ri.fits h).2
theorem Rebuilds.ld8 (q : Req) (o : Bo) : Rebuilds.Statement (.ld8 q o) := fun h =>
  congrArg (Instr.ld8 q) (Bo.fits h).2
theorem Rebuilds.ld16 (q : Req) (o : Bo) : Rebuilds.Statement (.ld16 q o) := fun h =>
  congrArg (Instr.ld16 q) (Bo.fits h).2
theorem Rebuilds.ld32 (q : Req) (o : Bo) : Rebuilds.Statement (.ld32 q o) := fun h =>
  congrArg (Instr.ld32 q) (Bo.fits h).2
theorem Rebuilds.st8 (q : Req) (o : Bo) : Rebuilds.Statement (.st8 q o) := fun h =>
  congrArg (Instr.st8 q) (Bo.fits h).2
theorem Rebuilds.st16 (q : Req) (o : Bo) : Rebuilds.Statement (.st16 q o) := fun h =>
  congrArg (Instr.st16 q) (Bo.fits h).2
theorem Rebuilds.st32 (q : Req) (o : Bo) : Rebuilds.Statement (.st32 q o) := fun h =>
  congrArg (Instr.st32 q) (Bo.fits h).2
theorem Rebuilds.ld8x (q : Req) (o : Bi) : Rebuilds.Statement (.ld8x q o) := fun h =>
  congrArg (Instr.ld8x q) (Bi.fits h).2
theorem Rebuilds.ld16x (q : Req) (o : Bi) : Rebuilds.Statement (.ld16x q o) := fun h =>
  congrArg (Instr.ld16x q) (Bi.fits h).2
theorem Rebuilds.ld32x (q : Req) (o : Bi) : Rebuilds.Statement (.ld32x q o) := fun h =>
  congrArg (Instr.ld32x q) (Bi.fits h).2
theorem Rebuilds.st8x (q : Req) (o : Bi) : Rebuilds.Statement (.st8x q o) := fun h =>
  congrArg (Instr.st8x q) (Bi.fits h).2
theorem Rebuilds.st16x (q : Req) (o : Bi) : Rebuilds.Statement (.st16x q o) := fun h =>
  congrArg (Instr.st16x q) (Bi.fits h).2
theorem Rebuilds.st32x (q : Req) (o : Bi) : Rebuilds.Statement (.st32x q o) := fun h =>
  congrArg (Instr.st32x q) (Bi.fits h).2
theorem Rebuilds.jmp (q : Req) (o : J) : Rebuilds.Statement (.jmp q o) := fun h =>
  congrArg (Instr.jmp q) (J.fits h).2
theorem Rebuilds.jmpr (q : Req) (o : JR) : Rebuilds.Statement (.jmpr q o) := fun h =>
  congrArg (Instr.jmpr q) (JR.fits h).2
theorem Rebuilds.jmpi (q : Req) (o : J) : Rebuilds.Statement (.jmpi q o) := fun h =>
  congrArg (Instr.jmpi q) (J.fits h).2
theorem Rebuilds.int (q : Req) (o : J) : Rebuilds.Statement (.int q o) := fun h =>
  congrArg (Instr.int q) (J.fits h).2

end Sys2Proof.Laws
end

