-- ==== Sys2Proof/Laws/Ports.lean ====
section
/-! SUPPORT. What a port can do to the state, once: the register file alone, or the memory alone, kept in its form. -/

namespace Sys2Proof.Machine

/-- Everything a port of R39 to R41 can do. -/
theorem usePort_cases {c : Config} {s t : State} {p : Port} (h : s.usePort c p = some t) :
    (∃ r v, t = s.writeReg r v) ∨ (∃ a v m, s.mem.writeByte c a v = some m ∧ t = s.setMem m) ∨
      (∃ a w m, s.mem.writeWord c a w = some m ∧ t = s.setMem m) := by
  cases p with
  | regWrite r v => exact .inl ⟨r.toNat, v, (Option.some.inj h).symm⟩
  | memWrite a v =>
    obtain ⟨m, hm, rfl⟩ := Option.map_eq_some_iff.1 h
    exact .inr (.inl ⟨_, _, m, hm, rfl⟩)
  | memWriteWord a w =>
    obtain ⟨m, hm, rfl⟩ := Option.map_eq_some_iff.1 h
    exact .inr (.inr ⟨_, _, m, hm, rfl⟩)
  | loadInstruction a i =>
    obtain ⟨w, -, hw⟩ := Option.bind_eq_some_iff.1 h
    obtain ⟨m, hm, rfl⟩ := Option.map_eq_some_iff.1 hw
    exact .inr (.inr ⟨_, _, m, hm, rfl⟩)

/-- A call of the host is a port, a `set_pc` before the first step, or a step. -/
theorem Session.call_cases {h h' : Session} {x : HostCall} (hx : h.call x = some h') :
    (∃ p s, x = .port p ∧ h.state.usePort params p = some s ∧ h' = { h with state := s }) ∨
    (∃ a, x = .setPc a ∧ h.stepped = false ∧ h' = { h with state := h.state.setPc a }) ∨
    (∃ s, x = .clock ∧ step h.state = .next s ∧ h' = { state := s, stepped := true }) := by
  cases x with
  | port p =>
    obtain ⟨s, hs, rfl⟩ := Option.map_eq_some_iff.1 hx
    exact .inl ⟨p, s, rfl, hs, rfl⟩
  | setPc a =>
    simp only [Session.call, Session.setPc] at hx
    split at hx
    · cases hx
    · next hn => exact .inr (.inl ⟨a, rfl, by simpa using hn, (Option.some.inj hx).symm⟩)
  | clock =>
    simp only [Session.call, Session.clock] at hx
    split at hx <;> cases hx
    exact .inr (.inr ⟨_, rfl, ‹_›, rfl⟩)

end Sys2Proof.Machine
end

