-- ==== Sys2Proof/Tests/Slice0.lean ====
section
/-! SUPPORT. Tests. The words are written out from the table and formats of spec/30_encoding.md, the expected results
are the vectors of spec/95_test_vectors.md (section in each comment); the witnesses show that the hypotheses of each
statement can be met. -/

namespace Sys2Proof.Tests
open Sys2Proof Sys2Proof.Machine Sys2Proof.Claims

/-! ### Well-formedness: each check refuses an ill-formed term (R73) -/

theorem test_wf_accepts_largest : Instr.wf (.add .none ⟨31, 31, 31, 127⟩) = true ∧ Instr.wf (.addi .none ⟨31, 31, ⟨true, 2047⟩⟩) = true ∧
    Instr.wf (.ld8 .none ⟨31, 31, 4095⟩) = true ∧ Instr.wf (.ld8x .none ⟨31, 31, 31, 127⟩) = true ∧
    Instr.wf (.jmp .none ⟨⟨true, 2097151⟩⟩) = true ∧ Instr.wf (.jmpr .none ⟨31, 131071⟩) = true := by decide
theorem test_wf_refuses_rd : Instr.wf (.add .none ⟨32, 0, 0, 0⟩) = false ∧
    Instr.wf (.add .none ⟨0, 32, 0, 0⟩) = false ∧
    Instr.wf (.add .none ⟨0, 0, 32, 0⟩) = false ∧
    Instr.wf (.add .none ⟨0, 0, 0, 128⟩) = false := by decide
theorem test_wf_refuses_ri : Instr.wf (.addi .none ⟨32, 0, ⟨false, 0⟩⟩) = false ∧
    Instr.wf (.addi .none ⟨0, 32, ⟨false, 0⟩⟩) = false ∧
    Instr.wf (.addi .none ⟨0, 0, ⟨false, 2048⟩⟩) = false := by decide
theorem test_wf_refuses_bo : Instr.wf (.ld8 .none ⟨32, 0, 0⟩) = false ∧
    Instr.wf (.ld8 .none ⟨0, 32, 0⟩) = false ∧
    Instr.wf (.ld8 .none ⟨0, 0, 4096⟩) = false := by decide
theorem test_wf_refuses_bi : Instr.wf (.ld8x .none ⟨32, 0, 0, 0⟩) = false ∧
    Instr.wf (.ld8x .none ⟨0, 32, 0, 0⟩) = false ∧
    Instr.wf (.ld8x .none ⟨0, 0, 32, 0⟩) = false ∧
    Instr.wf (.ld8x .none ⟨0, 0, 0, 128⟩) = false := by decide
theorem test_wf_refuses_j_and_jr : Instr.wf (.jmp .none ⟨⟨false, 2097152⟩⟩) = false ∧
    Instr.wf (.jmpr .none ⟨32, 0⟩) = false ∧
    Instr.wf (.jmpr .none ⟨0, 131072⟩) = false := by decide

/-! ### Decoding: a word of every constructor, its fields written bit by bit (R86, R75 to R80) -/

theorem test_decode_rd :
    decode 0b0000_000001_00011_00001_00010_0000000 = .ok (.shl .none ⟨3, 1, 2, 0⟩) ∧
    decode 0b1000_000010_00011_00001_00010_0000000 = .ok (.shr ⟨true, false, false, false⟩ ⟨3, 1, 2, 0⟩) ∧
    decode 0b0100_000011_00011_00001_00010_0000000 = .ok (.and ⟨false, true, false, false⟩ ⟨3, 1, 2, 0⟩) ∧
    decode 0b0010_000100_00011_00001_00010_0000000 = .ok (.or ⟨false, false, true, false⟩ ⟨3, 1, 2, 0⟩) ∧
    decode 0b0001_000101_00011_00001_00010_0000000 = .ok (.xor ⟨false, false, false, true⟩ ⟨3, 1, 2, 0⟩) ∧
    decode 0b0000_000110_00011_00001_00010_0000000 = .ok (.not .none ⟨3, 1, 2, 0⟩) ∧
    decode 0b1000_000111_00011_00001_00010_0000000 = .ok (.add ⟨true, false, false, false⟩ ⟨3, 1, 2, 0⟩) ∧
    decode 0b0100_001000_00011_00001_00010_0000000 = .ok (.sub ⟨false, true, false, false⟩ ⟨3, 1, 2, 0⟩) ∧
    decode 0b0010_001001_00011_00001_00010_0000000 = .ok (.mul ⟨false, false, true, false⟩ ⟨3, 1, 2, 0⟩) := by decide
theorem test_decode_ri :
    decode 0b0001_001010_00011_00001_1_00000000101 = .ok (.shli ⟨false, false, false, true⟩ ⟨3, 1, ⟨true, 5⟩⟩) ∧
    decode 0b0000_001011_00011_00001_1_00000000101 = .ok (.shri .none ⟨3, 1, ⟨true, 5⟩⟩) ∧
    decode 0b1000_001100_00011_00001_1_00000000101 = .ok (.andi ⟨true, false, false, false⟩ ⟨3, 1, ⟨true, 5⟩⟩) ∧
    decode 0b0100_001101_00011_00001_1_00000000101 = .ok (.ori ⟨false, true, false, false⟩ ⟨3, 1, ⟨true, 5⟩⟩) ∧
    decode 0b0010_001110_00011_00001_1_00000000101 = .ok (.xori ⟨false, false, true, false⟩ ⟨3, 1, ⟨true, 5⟩⟩) ∧
    decode 0b0001_001111_00011_00001_1_00000000101 = .ok (.noti ⟨false, false, false, true⟩ ⟨3, 1, ⟨true, 5⟩⟩) ∧
    decode 0b0000_010000_00011_00001_1_00000000101 = .ok (.addi .none ⟨3, 1, ⟨true, 5⟩⟩) ∧
    decode 0b1000_010001_00011_00001_1_00000000101 = .ok (.subi ⟨true, false, false, false⟩ ⟨3, 1, ⟨true, 5⟩⟩) ∧
    decode 0b0100_010010_00011_00001_1_00000000101 = .ok (.muli ⟨false, true, false, false⟩ ⟨3, 1, ⟨true, 5⟩⟩) := by decide
theorem test_decode_bo :
    decode 0b0010_010011_00001_00010_000100100000 = .ok (.ld8 ⟨false, false, true, false⟩ ⟨1, 2, 288⟩) ∧
    decode 0b0001_010100_00001_00010_000100100000 = .ok (.ld16 ⟨false, false, false, true⟩ ⟨1, 2, 288⟩) ∧
    decode 0b0000_010101_00001_00010_000100100000 = .ok (.ld32 .none ⟨1, 2, 288⟩) ∧
    decode 0b1000_010110_00001_00010_000100100000 = .ok (.st8 ⟨true, false, false, false⟩ ⟨1, 2, 288⟩) ∧
    decode 0b0100_010111_00001_00010_000100100000 = .ok (.st16 ⟨false, true, false, false⟩ ⟨1, 2, 288⟩) ∧
    decode 0b0010_011000_00001_00010_000100100000 = .ok (.st32 ⟨false, false, true, false⟩ ⟨1, 2, 288⟩) := by decide
theorem test_decode_bi :
    decode 0b0001_011001_10100_00101_00110_1111111 = .ok (.ld8x ⟨false, false, false, true⟩ ⟨20, 5, 6, 127⟩) ∧
    decode 0b0000_011010_10100_00101_00110_1111111 = .ok (.ld16x .none ⟨20, 5, 6, 127⟩) ∧
    decode 0b1000_011011_10100_00101_00110_1111111 = .ok (.ld32x ⟨true, false, false, false⟩ ⟨20, 5, 6, 127⟩) ∧
    decode 0b0100_011100_10100_00101_00110_1111111 = .ok (.st8x ⟨false, true, false, false⟩ ⟨20, 5, 6, 127⟩) ∧
    decode 0b0010_011101_10100_00101_00110_1111111 = .ok (.st16x ⟨false, false, true, false⟩ ⟨20, 5, 6, 127⟩) ∧
    decode 0b0001_011110_10100_00101_00110_1111111 = .ok (.st32x ⟨false, false, false, true⟩ ⟨20, 5, 6, 127⟩) := by decide
theorem test_decode_j :
    decode 0b0000_011111_1_000000000000000000100 = .ok (.jmp .none ⟨⟨true, 4⟩⟩) ∧
    decode 0b1000_100001_1_000000000000000000100 = .ok (.jmpi ⟨true, false, false, false⟩ ⟨⟨true, 4⟩⟩) ∧
    decode 0b0100_100010_1_000000000000000000100 = .ok (.int ⟨false, true, false, false⟩ ⟨⟨true, 4⟩⟩) := by decide
theorem test_decode_jr :
    decode 0b0010_100000_00111_00000000000000011 = .ok (.jmpr ⟨false, false, true, false⟩ ⟨7, 3⟩) := by decide
theorem test_decode_bytes_little_endian :
    decodeBytes [0x04, 0x00, 0xC0, 0x07, 0xAA] = .ok (.jmp .none ⟨⟨false, 4⟩⟩, [0xAA]) ∧
    decodeBytes [0x04, 0x00, 0xC0] = .error .tooShort := by decide
/-- Section 2.1: negative zero, the largest immediate, the ignored bits (its word 0x01C2107F holds y = 0 by R75, so the
word with y = 1 and all ignored bits set stands here: notes/assumptions/17.md). -/
theorem test_decode_vectors :
    decode 0x04061800 = .ok (.addi .none ⟨3, 1, ⟨true, 0⟩⟩) ∧ decode 0x040617FF = .ok (.addi .none ⟨3, 1, ⟨false, 2047⟩⟩) ∧
    decode 0x01C210FF = .ok (.add .none ⟨1, 1, 1, 127⟩) ∧ decode 0x08600000 = .ok (.jmpi .none ⟨⟨true, 0⟩⟩) ∧
    Raw.ofWord 0xFFFFFFFF = ⟨⟨true, true, true, true⟩, 63, 0x3FFFFF⟩ := by decide
/-- S1 of section 1. -/
theorem test_encode_s1 : (Raw.mk ⟨true, false, false, true⟩ 7 0x021080).toWord = some 0x91C21080 := by decide
theorem test_decode_table_word : decodeTableWord 32 0x0FC00000 = none ∧
    decodeTableWord 32 0x08800063 = some (.int .none ⟨⟨false, 99⟩⟩) := by decide

/-! ### One step -/

/-- Registers, memory and pc over a blank state. -/
def st (regs mem : List (Nat × Nat)) (pc : Nat) : State :=
  let s := regs.foldl (fun s p => s.writeReg p.1 (BitVec.ofNat 8 p.2)) State.reset
  let m := mem.foldl (fun m p => Memory.set m p.1 (BitVec.ofNat 8 p.2)) ([] : Memory)
  { s with mem := m, pc := BitVec.ofNat 8 pc }

def withFlags (s : State) (c z g l : Bool) : State := { s with flags := ⟨c, z, g, l⟩ }

def nextOf : Result → Option State
  | .next t => some t
  | .fault _ => none
  | .refused _ => none

/-- The state after the step that runs a word placed at the pc. -/
def one (w : Nat) (s : State) : Option State := nextOf (step (s.withFetchWord 32 w))

def byteAt (s : State) (a : Nat) : Nat := (s.mem.get a).toNat

def seesAlu (t : State) : Nat × Bool × Bool × Bool × Nat × Bool :=
  ((t.readReg 3).toNat, t.flags.c, t.flags.z, t.flags.g, t.pc.toNat, t.live)

/-- `OP r3, r1, r2` or `OPI r3, r1, imm` at pc 0. -/
def alu (w a b : Nat) : Option (Nat × Bool × Bool × Bool × Nat × Bool) := (one w (st [(1, a), (2, b)] [] 0)).map seesAlu

/-! Section 2.3: register-register. -/

theorem test_shl_1 : alu 0x00461100 0x81 0x01 = some (0x02, true, false, true, 4, true) := by decide
theorem test_shl_2 : alu 0x00461100 0x01 0x08 = some (0x00, true, true, false, 4, true) := by decide
theorem test_shr_1 : alu 0x00861100 0x81 0x01 = some (0x40, false, false, true, 4, true) := by decide
theorem test_shr_2 : alu 0x00861100 0xFF 0x08 = some (0x00, false, true, false, 4, true) := by decide
theorem test_and_1 : alu 0x00C61100 0xF0 0x3C = some (0x30, false, false, true, 4, true) := by decide
theorem test_or_1 : alu 0x01061100 0xF0 0x0F = some (0xFF, false, false, true, 4, true) := by decide
theorem test_xor_1 : alu 0x01461100 0xFF 0xFF = some (0x00, false, true, false, 4, true) := by decide
theorem test_xor_2 : alu 0x01461100 0xAA 0x55 = some (0xFF, false, false, true, 4, true) := by decide
theorem test_not_1 : alu 0x01861000 0x0F 0 = some (0xF0, false, false, true, 4, true) := by decide
theorem test_add_1 : alu 0x01C61100 0xFF 0x02 = some (0x01, true, false, true, 4, true) := by decide
theorem test_add_2 : alu 0x01C61100 0xFF 0x01 = some (0x00, true, true, false, 4, true) := by decide
theorem test_sub_1 : alu 0x02061100 0x00 0x02 = some (0xFE, true, false, true, 4, true) := by decide
theorem test_sub_2 : alu 0x02061100 0x05 0x03 = some (0x02, false, false, true, 4, true) := by decide
theorem test_mul_1 : alu 0x02461100 0x10 0x10 = some (0x00, true, true, false, 4, true) := by decide
theorem test_mul_2 : alu 0x02461100 0x10 0x11 = some (0x10, true, false, true, 4, true) := by decide
/-- The flags of a black-hole destination are written; registers 30 and 31 read 0 (R127, R21). -/
theorem test_add_black_holes :
    (one 0x01C01080 (st [(1, 7)] [] 0)).map (fun t => (t.readReg 0, t.readReg 1, t.flags)) =
      some (0, 7, ⟨false, false, true, false⟩) ∧
    alu 0x01C7EF80 7 0 = some (0, false, true, false, 4, true) := by decide

/-! Section 2.4: register-immediate. -/

theorem test_shli_1 : alu 0x02861003 0x1F 0 = some (0xF8, false, false, true, 4, true) := by decide
theorem test_shli_2 : (one 0x02861003 (st [(1, 0x20)] [] 0)).map (fun t => (t.fatal, t.pc, t.readReg 3)) =
    some (some .riImmediate, 0, 0) := by decide
theorem test_shri_1 : alu 0x02C61007 0x80 0 = some (0x01, false, false, true, 4, true) := by decide
theorem test_andi_1 : alu 0x0306100F 0xAB 0 = some (0x0B, false, false, true, 4, true) := by decide
theorem test_ori_1 : alu 0x03461005 0xA0 0 = some (0xA5, false, false, true, 4, true) := by decide
theorem test_xori_1 : alu 0x038610FF 0xFF 0 = some (0x00, false, true, false, 4, true) := by decide
theorem test_noti_1 : alu 0x03C61005 0x00 0 = some (0xFF, false, false, true, 4, true) := by decide
theorem test_addi_1 : alu 0x04061005 0x00 0 = some (0x05, false, false, true, 4, true) := by decide
theorem test_addi_2 : (one 0x04061002 (st [(1, 0xFF)] [] 0)).map (fun t => (t.fatal, t.pc, t.readReg 3)) =
    some (some .riImmediate, 0, 0) := by decide
theorem test_subi_1 : alu 0x04461001 0x01 0 = some (0x00, false, true, false, 4, true) := by decide
theorem test_subi_2 : (one 0x04461001 (st [(1, 0x00)] [] 0)).map (fun t => (t.fatal, t.pc, t.readReg 3)) =
    some (some .riImmediate, 0, 0) := by decide
theorem test_muli_1 : alu 0x04861005 0x03 0 = some (0x0F, false, false, true, 4, true) := by decide
theorem test_muli_2 : (one 0x04861010 (st [(1, 0x10)] [] 0)).map (fun t => (t.fatal, t.pc, t.readReg 3)) =
    some (some .riImmediate, 0, 0) := by decide
/-- An immediate that is negative or above 255 is Fatal. -/
theorem test_ri_immediate_bounds : (one 0x04061801 (st [(1, 1)] [] 0)).map (·.fatal) = some (some .riImmediate) ∧
    (one 0x04061100 (st [(1, 1)] [] 0)).map (·.fatal) = some (some .riImmediate) := by decide
/-- Under `RI_FATAL = OPERAND` ADDI 0xFF, 2 wraps with carry; under `AMOUNT_MOD_8` SHR 0xFF by 8 gives 0xFF with carry
(the remarks after the tables of sections 2.3 and 2.4). -/
theorem test_other_policies :
    seesAlu (aluRi { params with riFatal := .operand } .add ⟨3, 1, ⟨false, 2⟩⟩ (st [(1, 0xFF)] [] 0)) =
      (1, true, false, true, 4, true) ∧
    seesAlu (aluRd { params with shiftWrap := .amountMod8 } .shr ⟨3, 1, 2, 0⟩ (st [(1, 0xFF), (2, 8)] [] 0)) =
      (0xFF, true, false, true, 4, true) := by decide

/-! Section 2.5: loads and stores. -/

def regsOf (t : State) (rs : List Nat) : List Nat := rs.map fun r => (t.readReg r).toNat
def bytesOf (t : State) (as : List Nat) : List Nat := as.map (byteAt t)

theorem test_ld8_wraps : (one 0x04C22120 (st [(2, 0xF0)] [(0x10, 0x77)] 0x40)).map (fun t => (regsOf t [1], t.pc.toNat, t.run)) =
    some ([0x77], 0x44, .runnable) := by decide
theorem test_ld8_out_of_range : (one 0x04C22000 (st [(2, 0xFF)] [] 0)).map (fun t => (regsOf t [1], t.pc.toNat, t.run)) =
    some ([0], 0, .halted .memOutOfRange) := by decide
theorem test_ld16_partial : (one 0x050200FE (st [(1, 0xEE), (2, 0xEE)] [(254, 0x9C)] 8)).map (fun t => (regsOf t [1, 2], t.pc.toNat, t.run)) =
    some ([0x9C, 0xEE], 8, .halted .memOutOfRange) := by decide
theorem test_ld16_register_30 : (one 0x053C0080 (st [] [(0x80, 1)] 0)).map (fun t => (regsOf t [30], t.pc.toNat, t.run)) =
    some ([0], 0, .halted .copyRegInvalid) := by decide
theorem test_ld32_into_its_base : (one 0x05485000 (st [(5, 0x80)] [(0x80, 9), (0x81, 8), (0x82, 7), (0x83, 6)] 0)).map (fun t => (regsOf t [4, 5, 6, 7], t.pc.toNat, t.run)) =
    some ([9, 8, 7, 6], 4, .runnable) := by decide
theorem test_ld32_register_31 : (one 0x05780080 (st [] [(0x80, 1), (0x81, 2), (0x82, 3), (0x83, 4)] 0)).map (fun t => (regsOf t [28, 29], t.pc.toNat, t.run)) =
    some ([1, 2], 0, .halted .copyRegInvalid) := by decide
theorem test_st8 : (one 0x05822000 (st [(1, 0x7E), (2, 0x90)] [] 0)).map (fun t => (bytesOf t [0x90], t.pc.toNat, t.run)) =
    some ([0x7E], 4, .runnable) := by decide
theorem test_st8_black_hole_stores_zero : (one 0x05BC0090 (st [] [(0x90, 0x55)] 0)).map (fun t => (bytesOf t [0x90], t.pc.toNat, t.run)) =
    some ([0], 4, .runnable) := by decide
theorem test_st16 : (one 0x05CA0040 (st [(5, 0xAB), (6, 0xCD)] [] 0)).map (fun t => (bytesOf t [0x40, 0x41], t.pc.toNat, t.run)) =
    some ([0xAB, 0xCD], 4, .runnable) := by decide
theorem test_st16_partial : (one 0x05CA00FE (st [(5, 0xAB), (6, 0xCD)] [] 12)).map (fun t => (bytesOf t [254, 255], t.pc.toNat, t.run)) =
    some ([0xAB, 0], 12, .halted .memOutOfRange) := by decide
theorem test_st32_partial : (one 0x060200FC (st [(1, 0x11), (2, 0x22), (3, 0x33), (4, 0x44)] [] 16)).map (fun t => (bytesOf t [252, 253, 254], t.pc.toNat, t.run)) =
    some ([0x11, 0x22, 0x33], 16, .halted .memOutOfRange) := by decide
theorem test_st32_register_31 : (one 0x06380080 (st [(28, 0x0B), (29, 0x0C)] [(0x82, 0xFF), (0x83, 0xFF)] 0)).map (fun t => (bytesOf t [0x80, 0x81, 0x82, 0x83], t.pc.toNat, t.run)) =
    some ([0x0B, 0x0C, 0, 0xFF], 0, .halted .copyRegInvalid) := by decide
theorem test_ld8x_wraps : (one 0x06425300 (st [(5, 0xF0), (6, 0x20)] [(0x10, 0x66)] 0x40)).map (fun t => (regsOf t [1], t.pc.toNat, t.run)) =
    some ([0x66], 0x44, .runnable) := by decide
theorem test_ld16x : (one 0x06A85300 (st [(5, 0x80), (6, 2)] [(0x82, 0x33), (0x83, 0x44)] 0)).map (fun t => (regsOf t [20, 21], t.pc.toNat, t.run)) =
    some ([0x33, 0x44], 4, .runnable) := by decide
theorem test_ld32x_partial : (one 0x06D41100 (st [(1, 0xFC), (2, 1), (12, 0xEE)] [(253, 0xA1), (254, 0xA2)] 8)).map (fun t => (regsOf t [10, 11, 12], t.pc.toNat, t.run)) =
    some ([0xA1, 0xA2, 0xEE], 8, .halted .memOutOfRange) := by decide
theorem test_st8x : (one 0x070E8000 (st [(7, 0x99), (8, 0x10)] [] 0)).map (fun t => (bytesOf t [0x10], t.pc.toNat, t.run)) =
    some ([0x99], 4, .runnable) := by decide
theorem test_st16x : (one 0x074A8480 (st [(5, 0xAB), (6, 0xCD), (8, 0x20), (9, 0x20)] [] 0)).map (fun t => (bytesOf t [0x40, 0x41], t.pc.toNat, t.run)) =
    some ([0xAB, 0xCD], 4, .runnable) := by decide
theorem test_st32x_index_31 : (one 0x07828F80 (st [(1, 0x11), (2, 0x22), (3, 0x33), (4, 0x44), (8, 0x40)] [] 0)).map (fun t => (bytesOf t [0x40, 0x41, 0x42, 0x43], t.pc.toNat, t.run)) =
    some ([0x11, 0x22, 0x33, 0x44], 4, .runnable) := by decide

/-! Section 2.6: control flow, and 2.2, 2.7: the gate and the sequencer. -/

def endsAt (w : Nat) (s : State) : Option (Nat × RunState) := (one w s).map fun t => (t.pc.toNat, t.run)

theorem test_jmp_back : endsAt 0x07E00004 (st [] [] 8) = some (4, .runnable) := by decide
theorem test_jmp_wraps : endsAt 0x07E0000C (st [] [] 8) = some (252, .runnable) := by decide
theorem test_jmpr_last_target : endsAt 0x080E0000 (st [(7, 251)] [] 4) = some (251, .runnable) := by decide
theorem test_jmpr_out_of_range : endsAt 0x080E0000 (st [(7, 252)] [] 4) = some (4, .halted .jumpOutOfRange) := by decide
theorem test_jmpi_negative_zero : endsAt 0x08600000 (st [] [] 4) = some (0, .runnable) := by decide
theorem test_jmpi_negative : endsAt 0x08600004 (st [] [] 4) = some (4, .halted .jumpOutOfRange) := by decide
theorem test_int_value_ignored : endsAt 0x08800063 (st [] [] 12) = some (12, .halted .interrupt) := by decide
theorem test_int_gated_off : endsAt 0xB8800000 (withFlags (st [] [] 12) false true true false) = some (16, .runnable) := by
  decide
theorem test_gate_less : endsAt 0x48800000 (withFlags (st [] [] 12) true true true false) = some (16, .runnable) ∧
    endsAt 0x48800000 (withFlags (st [] [] 12) false false false true) = some (12, .halted .interrupt) := by decide
theorem test_add_gated_off : (one 0x81C21080 (withFlags (st [(1, 5)] [] 0) false true false false)).map
    (fun t => (t.readReg 1, t.flags, t.pc)) = some (5, ⟨false, true, false, false⟩, 4) := by decide
theorem test_unassigned : endsAt 0x0FC00000 (st [] [] 0) = some (0, .halted .unimplemented) ∧
    endsAt 0x20000000 (st [] [] 0) = some (4, .runnable) := by decide
theorem test_reset_step : (nextOf (step State.reset)).map (fun t => (t.pc, t.run)) = some (0, .halted .unimplemented) := by
  decide
theorem test_fetch_bounds : (nextOf (step (st [] [] 252))).map (·.fatal) = some (some .fetchOutOfRange) ∧
    (nextOf (step (st [] [] 251))).map (fun t => (t.pc, t.run)) = some (251, .halted .unimplemented) := by decide
theorem test_no_step : nextOf (step (State.reset.raiseHalt .interrupt)) = none ∧
    nextOf (step (State.reset.raiseFatal .riImmediate)) = none := by decide

/-! ### Ports (S2 of section 1; R39 to R43) -/

theorem test_register_port : ((State.reset.portRegWrite 255 1).portRegRead 255, (State.reset.portRegWrite 29 1).portRegRead 29) =
    (0, 1) := by decide
theorem test_load_instruction_port : (State.reset.portLoadInstruction params 252 ⟨.none, 34, 0⟩).isNone = true ∧
    ((State.reset.portLoadInstruction params 0 ⟨.none, 34, 0⟩).map (·.portCurrentInstruction params)) =
      some (some ⟨.none, 34, 0⟩) := by decide

/-! ### Witnesses: the hypotheses of each statement, met on concrete states at boundary values -/

theorem exists_next {r : Result} {p : State → Bool} (h : ((nextOf r).any p) = true) : ∃ t, r = .next t ∧ p t = true := by
  cases r with
  | next t => exact ⟨t, rfl, by simpa [nextOf] using h⟩
  | fault => simp [nextOf] at h
  | refused => simp [nextOf] at h

/-- A live state that fetches the word at pc. -/
def at_ (w : Nat) (s : State) : State := s.withFetchWord 32 w

def czg : Req := ⟨true, false, true, true⟩
def allFlags : Flags := ⟨true, true, true, true⟩

theorem witness_DecodeInvertsEncode : Function.Injective opcodeMap ∧ (Instr.addi czg ⟨31, 31, ⟨true, 2047⟩⟩).wf = true :=
  ⟨opcodeMap_injective, by decide⟩
theorem witness_EncodeInvertsDecode : decodeWith opcodeMap 0x01C210FF = .ok (.add .none ⟨1, 1, 1, 127⟩) := by decide
theorem witness_WordFieldsRoundTrip : (Raw.mk czg 63 0x3FFFFF).opcode ≤ 63 ∧ (Raw.mk czg 63 0x3FFFFF).operand ≤ 0x3FFFFF := by
  decide
theorem witness_EncodeRejectsWideFields : 63 < (Raw.mk .none 64 0).opcode ∧ 0x3FFFFF < (Raw.mk .none 0 0x400000).operand ∧
    (Raw.mk czg 63 0x3FFFFF).opcode ≤ 63 ∧ encodeWith opcodeMap (.st32x .none ⟨0, 0, 32, 0⟩) = none ∧
    encodeWith opcodeMap (.ld8 .none ⟨0, 0, 4096⟩) = none ∧ encodeWith opcodeMap (.jmpr .none ⟨32, 0⟩) = none ∧
    encodeWith opcodeMap (.addi .none ⟨0, 0, ⟨false, 2048⟩⟩) = none ∧ encodeWith opcodeMap (.jmp .none ⟨⟨false, 2097152⟩⟩) = none := by
  decide
theorem witness_SignMagnitudeValue : 1 ≤ 12 ∧ 0xFFF < 2 ^ 12 ∧ (0xFFF : Nat).testBit 11 = true ∧ (0x7FF : Nat).testBit 11 = false := by
  decide
theorem witness_IgnoredBitsHaveNoEffect :
    SameMeaning .add (Instr.add .none ⟨1, 2, 3, 0⟩).operand (Instr.add .none ⟨1, 2, 3, 127⟩).operand ∧
    SameMeaning .addi (Instr.addi .none ⟨1, 2, ⟨true, 0⟩⟩).operand (Instr.addi .none ⟨1, 2, ⟨false, 0⟩⟩).operand ∧
    SameMeaning .int (Instr.int .none ⟨⟨true, 5⟩⟩).operand (Instr.int .none ⟨⟨false, 9⟩⟩).operand ∧
    SameMeaning .jmpr (Instr.jmpr .none ⟨7, 0⟩).operand (Instr.jmpr .none ⟨7, 1⟩).operand :=
  ⟨⟨rfl, rfl, rfl⟩, ⟨rfl, rfl, rfl⟩, .inl rfl, rfl⟩
theorem witness_GatedOffOnlyAdvancesPc : ¬GateOpen czg State.reset.flags ∧ Live (at_ 0xB8800000 State.reset) ∧
    FetchesWord (at_ 0xB8800000 State.reset) 0xB8800000 ∧ ¬WordGateOpen 0xB8800000 (at_ 0xB8800000 State.reset).flags := by decide
theorem witness_StepRunsDecodedInstruction : Live (at_ 0x07C00104 (st [] [] 251)) ∧
    (at_ 0x07C00104 (st [] [] 251)).mem.readByte params 251 = some 0x04 ∧
    (at_ 0x07C00104 (st [] [] 251)).mem.readByte params 252 = some 0x01 ∧
    (at_ 0x07C00104 (st [] [] 251)).mem.readByte params 253 = some 0xC0 ∧
    (at_ 0x07C00104 (st [] [] 251)).mem.readByte params 254 = some 0x07 ∧
    decodeBytes [0x04, 0x01, 0xC0, 0x07] = .ok (.jmp .none ⟨⟨false, 260⟩⟩, []) := by decide
theorem witness_UnassignedOpcodeHalts : Live (at_ 0x08C00000 State.reset) ∧ FetchesWord (at_ 0x08C00000 State.reset) 0x08C00000 ∧
    WordGateOpen 0x08C00000 (at_ 0x08C00000 State.reset).flags ∧ 35 ≤ (0x08C00000 : Word).toNat / 2 ^ 22 % 64 ∧
    FetchesWord State.reset 0 ∧ WordGateOpen 0 State.reset.flags ∧ (0 : Word).toNat / 2 ^ 22 % 64 = 0 := by decide
theorem witness_FetchOutsideMemoryIsFatal : Live (st [] [] 252) ∧ 252 ≤ (st [] [] 252).pc.toNat ∧ Live (st [] [] 251) ∧
    (st [] [] 251).pc.toNat < 252 := by decide
theorem witness_NoStepFromTerminalStates : (State.reset.raiseHalt .interrupt).run = .halted .interrupt ∧
    (State.reset.raiseFatal .riImmediate).fatal = some .riImmediate := by decide
theorem witness_EveryStepHasOneOutcome : Live State.reset ∧ Live (st [(1, 1)] [] 252) := by decide
theorem witness_FatalWritesNothing :
    (∃ t, step (at_ 0x04061002 (st [(1, 0xFF)] [] 0)) = .next t ∧ (t.fatal == some .riImmediate) = true) ∧
    (∃ t, step (st [] [] 252) = .next t ∧ (t.fatal == some .fetchOutOfRange) = true) :=
  ⟨exists_next (by decide), exists_next (by decide)⟩
theorem witness_HaltMovesNothing :
    (∃ t, step State.reset = .next t ∧ (t.run == .halted .unimplemented) = true) ∧
    (∃ t, step (at_ 0x050200FE (st [] [(254, 1)] 8)) = .next t ∧ (t.run == .halted .memOutOfRange) = true) ∧
    (∃ t, step (at_ 0x053C0080 (st [] [] 8)) = .next t ∧ (t.run == .halted .copyRegInvalid) = true) ∧
    (∃ t, step (at_ 0x05CA00FE (st [(5, 1)] [] 12)) = .next t ∧ (t.run == .halted .memOutOfRange) = true) :=
  ⟨exists_next (by decide), exists_next (by decide), exists_next (by decide), exists_next (by decide)⟩
theorem witness_StepKeepsInvariant : (at_ 0x05CA00FE (st [(5, 1)] [] 12)).Inv ∧
    ∃ t, step (at_ 0x05CA00FE (st [(5, 1)] [] 12)) = .next t ∧ (t.mem.get 254 == 1) = true :=
  ⟨by decide, exists_next (by decide)⟩
theorem witness_LessIsNeverWritten : ∃ t, step (at_ 0x01C61100 (st [(1, 1)] [] 0)) = .next t ∧ t.flags.g = true :=
  exists_next (by decide)
/-- After one step from a state with L clear, the word at the pc requests L, and a step is defined there. -/
theorem witness_LessRequestsNeverRun : (at_ 0x07C00004 (st [] [(7, 0x48), (6, 0x80)] 0)).flags.l = false ∧
    ∃ t, Host.Core.run core 1 (at_ 0x07C00004 (st [] [(7, 0x48), (6, 0x80)] 0)) = .next t ∧
      (decide (FetchesWord t 0x48800000) && (0x48800000 : Word).getLsbD 30 && (nextOf (step t)).isSome) = true :=
  ⟨by decide, exists_next (by decide)⟩
theorem witness_OnlyAluWritesFlags : Live (st [] [] 0) ∧
    ∃ t, exec (.add .none ⟨0, 0, 0, 0⟩) (st [] [] 0) = .next t ∧ (t.flags != (st [] [] 0).flags) = true :=
  ⟨by decide, exists_next (by decide)⟩
theorem witness_OnlyAluAndLoadsWriteRegisters :
    (∃ t, exec (.add .none ⟨29, 1, 1, 0⟩) (st [(1, 7)] [] 0) = .next t ∧ (t.readReg 29 != 0) = true) ∧
    (∃ t, exec (.addi .none ⟨29, 1, ⟨false, 1⟩⟩) (st [(1, 7)] [] 0) = .next t ∧ (t.readReg 29 != 0) = true) ∧
    (∃ t, exec (.ld16 .none ⟨28, 0, 253⟩) (st [] [(254, 9)] 0) = .next t ∧ (t.readReg 29 != 0) = true) ∧
    (∃ t, exec (.ld8x .none ⟨1, 2, 0, 0⟩) (st [(2, 254)] [(254, 9)] 0) = .next t ∧ (t.readReg 1 != 0) = true) :=
  ⟨exists_next (by decide), exists_next (by decide), exists_next (by decide), exists_next (by decide)⟩
theorem witness_OnlyStoresWriteMemory :
    (∃ t, exec (.st16 .none ⟨1, 0, 253⟩) (st [(2, 9)] [] 0) = .next t ∧
      (t.mem.readByte params 254 != (st [(2, 9)] [] 0).mem.readByte params 254) = true) ∧
    (∃ t, exec (.st8x .none ⟨2, 0, 0, 0⟩) (st [(2, 9)] [] 0) = .next t ∧
      (t.mem.readByte params 0 != (st [(2, 9)] [] 0).mem.readByte params 0) = true) :=
  ⟨exists_next (by decide), exists_next (by decide)⟩
theorem witness_PcFollowsTable : Live (st [(7, 251)] [] 8) ∧
    (∃ t, exec (.jmpr .none ⟨7, 0⟩) (st [(7, 251)] [] 8) = .next t ∧ decide (Live t) = true) ∧
    (∃ t, exec (.jmpi .none ⟨⟨false, 252⟩⟩) (st [(7, 251)] [] 8) = .next t ∧ decide (¬Live t) = true) ∧
    (∃ t, exec (.int czg ⟨⟨false, 0⟩⟩) (st [(7, 251)] [] 8) = .next t ∧
      decide (Live t ∧ ¬GateOpen czg (st [(7, 251)] [] 8).flags) = true) :=
  ⟨by decide, exists_next (by decide), exists_next (by decide), exists_next (by decide)⟩
/-- The gate open with requests and without; the amounts at the edge of the shifts' clause. -/
theorem witness_RegisterShifts : GateOpen czg allFlags ∧ GateOpen .none State.reset.flags ∧ 255 < 256 ∧ 8 ≤ 8 := by decide
theorem witness_RegisterLogic : GateOpen czg allFlags ∧ IsReal 29 ∧ ¬IsReal 30 := by decide
theorem witness_RegisterArithmetic : GateOpen czg allFlags ∧ IsReal 1 ∧ ¬IsReal 0 := by decide
/-- The largest immediate and value that fit, and the smallest that do not, on either side. -/
theorem witness_ImmediateShifts : GateOpen czg allFlags ∧ (0x1F : Int) * 2 ^ 3 ≤ 255 ∧ ¬((0x20 : Int) * 2 ^ 3 ≤ 255) ∧
    (SignMag.mk false 255).val ≤ 255 ∧ ¬((SignMag.mk false 256).val ≤ 255) := by decide
theorem witness_ImmediateLogic : GateOpen czg allFlags ∧ 0 ≤ (SignMag.mk true 0).val ∧ ¬(0 ≤ (SignMag.mk true 1).val) := by decide
theorem witness_ImmediateArithmetic : GateOpen czg allFlags ∧ (0xF0 : Int) + 0x0F ≤ 255 ∧ ¬((0xF0 : Int) + 0x10 ≤ 255) ∧
    0 ≤ (1 : Int) - 1 ∧ ¬(0 ≤ (0 : Int) - 1) := by decide
/-- Every byte passes at the last registers and addresses; the first failing byte on either check. -/
theorem witness_LoadsBaseOffset : GateOpen .none State.reset.flags ∧
    (∀ k < 4, ByteOk 27 (State.reset.eaBo ⟨27, 0, 251⟩) k) ∧
    (∀ j < 3, ByteOk 28 (State.reset.eaBo ⟨28, 0, 251⟩) j) ∧ ¬ByteOk 28 (State.reset.eaBo ⟨28, 0, 251⟩) 3 ∧
    (∀ j < 1, ByteOk 1 (State.reset.eaBo ⟨1, 0, 254⟩) j) ∧ ¬ByteOk 1 (State.reset.eaBo ⟨1, 0, 254⟩) 1 := by decide
theorem witness_StoresBaseOffset : GateOpen czg allFlags ∧ (∀ k < 2, ByteOk 29 (State.reset.eaBo ⟨29, 0, 4095⟩ - 2) k) ∧
    ¬ByteOk 31 (State.reset.eaBo ⟨31, 0, 0⟩) 0 := by decide
theorem witness_LoadsBaseIndex : GateOpen .none State.reset.flags ∧
    (∀ k < 4, ByteOk 1 ((st [(5, 0xFB)] [] 0).eaBi ⟨1, 5, 31, 0⟩) k) ∧
    ¬ByteOk 1 ((st [(5, 0xFF)] [] 0).eaBi ⟨1, 5, 31, 0⟩) 0 := by decide
theorem witness_StoresBaseIndex : GateOpen .none State.reset.flags ∧
    (∀ k < 4, ByteOk 0 ((st [(5, 0xF0), (6, 0x20)] [] 0).eaBi ⟨0, 5, 6, 0⟩) k) ∧
    (∀ j < 2, ByteOk 0 ((st [(5, 0xFD)] [] 0).eaBi ⟨0, 5, 0, 0⟩) j) ∧
    ¬ByteOk 0 ((st [(5, 0xFD)] [] 0).eaBi ⟨0, 5, 0, 0⟩) 2 := by decide
theorem witness_StoreThenHostReadsNumber : GateOpen .none (st [(1, 7)] [] 0).flags ∧
    ∀ k < 4, ByteOk 1 ((st [(1, 7)] [] 0).eaBo ⟨1, 0, 251⟩) k := by decide
theorem witness_StoreLoadRoundTrip : GateOpen .none State.reset.flags ∧
    State.reset.eaBo ⟨26, 30, 0x80⟩ = State.reset.eaBo ⟨1, 0, 0x180⟩ ∧
    (∀ k < 4, ByteOk 1 (State.reset.eaBo ⟨1, 0, 0x180⟩) k) ∧ (∀ k < 4, ByteOk 26 (State.reset.eaBo ⟨1, 0, 0x180⟩) k) ∧
    IsReal (26 + 3) := by decide
theorem witness_StoreIsSeenByNextFetch : Live (st [] [] 247) ∧ GateOpen .none (st [] [] 247).flags ∧
    (st [] [] 247).eaBo ⟨1, 0, 251⟩ = (st [] [] 247).pc + 4 ∧ ∀ k < 4, ByteOk 1 ((st [] [] 247).eaBo ⟨1, 0, 251⟩) k := by decide
theorem witness_ByteAccess : 254 < params.memSize ∧ params.memSize ≤ 255 := by decide
theorem witness_WordAccess : (∃ k < 4, params.memSize ≤ (252 + k) % 256) ∧ (∀ k < 4, (251 + k) % 256 < params.memSize) ∧
    (∀ k < 4, (254 + k) % 256 < ({ params with memSize := 256 } : Config).memSize) := by decide
theorem witness_JumpRelative : GateOpen czg allFlags := by decide
theorem witness_JumpToRegister : GateOpen .none (st [(7, 251)] [] 0).flags ∧ ((st [(7, 251)] [] 0).readReg 7).toNat + 4 ≤ 255 ∧
    255 < ((st [(7, 252)] [] 0).readReg 7).toNat + 4 := by decide
theorem witness_JumpToImmediate : 0 ≤ (SignMag.mk true 0).val ∧ (SignMag.mk false 251).val + 4 ≤ 255 ∧
    ¬((SignMag.mk false 252).val + 4 ≤ 255) ∧ ¬(0 ≤ (SignMag.mk true 1).val) ∧ GateOpen czg allFlags := by decide
theorem witness_InterruptHalts : GateOpen czg allFlags ∧ GateOpen .none State.reset.flags := by decide
theorem witness_AbsoluteJumpTargetIsFetchable : GateOpen .none (st [(7, 251)] [] 0).flags ∧ Live (st [(7, 251)] [] 0) ∧
    ∃ t, exec (.jmpr .none ⟨7, 0⟩) (st [(7, 251)] [] 0) = .next t ∧ decide (Live t) = true :=
  ⟨by decide, by decide, exists_next (by decide)⟩
theorem witness_PseudoInstructions : GateOpen czg allFlags ∧ 255 ≤ 255 ∧ ¬GateOpen czg State.reset.flags := by decide
theorem witness_RandomResetIsEveryDraw : (st [(1, 9)] [(3, 4), (254, 1)] 77).Inv ∧ Live (st [(1, 9)] [(3, 4), (254, 1)] 77) := by decide
theorem witness_RegisterPortContract : IsReal (29 : Byte).toNat ∧ ¬IsReal (0 : Byte).toNat ∧ ¬IsReal (255 : Byte).toNat := by decide
theorem witness_MemoryPortContract : (254 : Byte).toNat < 255 ∧ 255 ≤ (255 : Byte).toNat ∧ (251 : Byte).toNat < 252 ∧
    252 ≤ (252 : Byte).toNat := by decide
theorem witness_LoadedInstructionIsCurrent : (251 : Byte).toNat < 252 ∧ 252 ≤ (252 : Byte).toNat ∧
    (Raw.mk .none 63 0x3FFFFF).opcode ≤ 63 ∧ 63 < (Raw.mk .none 64 0).opcode ∧
    FetchesWord State.reset 0 ∧ 252 ≤ (st [] [] 252).pc.toNat := by decide
theorem witness_SetPcOnlyBeforeFirstStep : (Session.mk State.reset false).clock.isSome = true ∧
    ((Session.mk State.reset false).edit (.regWrite 1 1)).isSome = true := by decide
theorem witness_PlacedWordIsFetchedNext : (st [] [] 251).pc.toNat < 252 := by decide
theorem witness_PortsChangeOnlyRegistersOrMemory : (State.reset.usePort params (.regWrite 29 1)).isSome = true ∧
    (State.reset.usePort params (.memWrite 254 1)).isSome = true ∧
    (State.reset.usePort params (.memWriteWord 251 1)).isSome = true ∧
    (State.reset.usePort params (.loadInstruction 251 ⟨czg, 63, 0x3FFFFF⟩)).isSome = true ∧ State.reset.Inv := by decide
theorem witness_HostCallsKeepTheRun : (Session.mk (State.reset.raiseHalt .interrupt) true).call (.port (.regWrite 1 1)) ≠ none ∧
    (Session.mk (State.reset.raiseFatal .riImmediate) true).call (.port (.memWrite 0 1)) ≠ none ∧
    (Session.mk State.reset false).call (.setPc 4) = some (Session.mk (State.reset.setPc 4) false) ∧
    (Session.mk (at_ 0x01C21080 State.reset) true).call .clock ≠ none := by decide

end Sys2Proof.Tests
end

/-! ## The value of a sign-magnitude field (R11) -/

section
namespace Sys2Proof

theorem bit_eq_testBit (n k : Nat) : bit n k = n.testBit k := by
  rw [bit, Nat.testBit_eq_decide_div_mod_eq, beq_eq_decide]

theorem SignMag.val_mk_true (m : Nat) : (SignMag.mk true m).val = -(m : Int) := rfl

theorem SignMag.val_mk_false (m : Nat) : (SignMag.mk false m).val = (m : Int) := rfl

theorem SignMag.val_zero (b : Bool) : (SignMag.mk b 0).val = 0 := by cases b <;> rfl

/-- The range of R11 depends on the magnitude alone. -/
theorem SignMag.val_bounds {v : SignMag} {m : Nat} (h : v.mag ≤ m) : -(m : Int) ≤ v.val ∧ v.val ≤ m := by
  obtain ⟨neg, mag⟩ := v
  have hm : mag ≤ m := h
  cases neg
  · rw [SignMag.val_mk_false]; omega
  · rw [SignMag.val_mk_true]; omega

theorem SignMag.ofField_eq (n v : Nat) : SignMag.ofField n v = ⟨v.testBit (n - 1), v % 2 ^ (n - 1)⟩ := by
  rw [SignMag.ofField, bit_eq_testBit]

theorem SignMag.val_ofField_of_sign_set {n v : Nat} (h : v.testBit (n - 1) = true) :
    (SignMag.ofField n v).val = -((v % 2 ^ (n - 1) : Nat) : Int) := by
  rw [SignMag.ofField_eq, h, SignMag.val_mk_true]

theorem SignMag.val_ofField_of_sign_clear {n v : Nat} (h : v.testBit (n - 1) = false) :
    (SignMag.ofField n v).val = ((v % 2 ^ (n - 1) : Nat) : Int) := by
  rw [SignMag.ofField_eq, h, SignMag.val_mk_false]

theorem SignMag.val_ofField_bounds (n v : Nat) :
    -(2 ^ (n - 1) - 1 : Int) ≤ (SignMag.ofField n v).val ∧ (SignMag.ofField n v).val ≤ (2 ^ (n - 1) - 1 : Int) := by
  have hmag : (SignMag.ofField n v).mag ≤ 2 ^ (n - 1) - 1 := Nat.le_sub_one_of_lt (Nat.mod_lt _ (by positivity))
  simpa [Nat.cast_sub Nat.one_le_two_pow] using SignMag.val_bounds hmag

/-- Both zeros of R11, and any field whose magnitude bits are clear. -/
theorem SignMag.val_ofField_of_mag_zero {n v : Nat} (h : v % 2 ^ (n - 1) = 0) : (SignMag.ofField n v).val = 0 := by
  rw [SignMag.ofField_eq, h, SignMag.val_zero]

theorem bits_zero (p hi : Nat) : bits p hi 0 = p % 2 ^ (hi + 1) := by simp [bits]

theorem Ri.ofField_imm (p : Nat) : (Ri.ofField p).imm = SignMag.ofField 12 (p % 2 ^ 12) := by
  rw [Ri.ofField, bits_zero]

theorem J.ofField_val (p : Nat) : (J.ofField p).val = SignMag.ofField 22 (p % 2 ^ 22) := by
  rw [J.ofField, bits_zero]

/-- Settles O6: the sign bit picks the clause, and the range and both zeros follow from the magnitude alone. -/
theorem signMagnitudeValue : Obligations.SignMagnitudeValue := by
  refine ⟨fun p => ⟨Ri.ofField_imm p, J.ofField_val p⟩, fun n v _ _ => ?_⟩
  obtain ⟨hlo, hhi⟩ := SignMag.val_ofField_bounds n v
  exact ⟨SignMag.val_ofField_of_sign_set, SignMag.val_ofField_of_sign_clear, hlo, hhi,
    SignMag.val_ofField_of_mag_zero (Nat.zero_mod _), SignMag.val_ofField_of_mag_zero (Nat.mod_self _)⟩

end Sys2Proof
end

/-! ## What a step and a port keep (R30, R43, R44) -/

section
namespace Sys2Proof.Machine

theorem aluRd_eq (c : Config) (op : AluOp) (o : Rd) (s : State) :
    aluRd c op o s = aluWriteBack c op o.dest (s.readReg o.x).toNat (s.readReg o.y).toNat s := rfl

theorem loadBytes_flags (c : Config) (ea : Byte) (target n k : Nat) (s : State) :
    (loadBytes c ea target n k s).flags = s.flags := by
  obtain ⟨j, -, -, ⟨-, h⟩ | ⟨-, -, h⟩ | ⟨-, -, -, h⟩⟩ := loadBytes_cases c ea target n k s <;> simp [h]

theorem storeBytes_flags (c : Config) (ea : Byte) (target n k : Nat) (s : State) :
    (storeBytes c ea target n k s).flags = s.flags := by
  obtain ⟨j, -, -, ⟨-, h⟩ | ⟨-, -, h⟩ | ⟨-, -, -, h⟩⟩ := storeBytes_cases c ea target n k s <;> simp [h]

theorem jumpAbsolute_flags (c : Config) (t : Int) (s : State) : (jumpAbsolute c t s).flags = s.flags := by
  obtain ⟨-, -, h⟩ | ⟨-, h⟩ := jumpAbsolute_cases c t s <;> simp [h]

theorem aluFlags_l (w : ShiftWrap) (op : AluOp) (a b : Nat) (f : Flags) : (aluFlags w op a b f).l = f.l := rfl

theorem aluRi_flags_l (c : Config) (op : AluOp) (o : Ri) (s : State) : (aluRi c op o s).flags.l = s.flags.l := by
  obtain ⟨-, h⟩ | ⟨-, h⟩ := aluRi_cases c op o s <;> simp [h, aluFlags_l]

/-- The ALU computes C, Z and G alone, and no other operation writes a flag (R126). -/
theorem effect_flags_l (i : Instr) (s : State) : (effect i s).flags.l = s.flags.l := by
  rcases effect_cases i s with ⟨op, o, -, h⟩ | ⟨op, o, -, h⟩ | ⟨n, -, o, -, -, h⟩ | ⟨n, -, o, -, -, h⟩ |
    ⟨n, -, o, -, -, h⟩ | ⟨n, -, o, -, -, h⟩ | ⟨q, o, -, h⟩ | ⟨q, o, -, h⟩ | ⟨q, o, -, h⟩ | ⟨q, o, -, h⟩ <;> rw [h]
  · rw [aluRd_eq, aluWriteBack_flags, aluFlags_l]
  · exact aluRi_flags_l ..
  · rw [loadBo, loadBytes_flags]
  · rw [loadBi, loadBytes_flags]
  · rw [storeBo, storeBytes_flags]
  · rw [storeBi, storeBytes_flags]
  · rfl
  · rw [jumpAbsolute_flags]
  · rw [jumpAbsolute_flags]
  · rfl

theorem gated_flags_l {q : Req} {s t : State} (h : t.flags.l = s.flags.l) : (gated q s t).flags.l = s.flags.l := by
  obtain ⟨-, e⟩ | ⟨-, e⟩ := gated_cases q s t <;> simp [e, h]

theorem step_flags_l {s t : State} (h : step s = .next t) : t.flags.l = s.flags.l := by
  obtain ⟨-, ⟨-, rfl⟩ | ⟨w, i, -, -, hi⟩ | ⟨w, e, -, -, rfl⟩⟩ := step_cases h
  · rfl
  · rw [exec_eq] at hi
    cases hi
    exact gated_flags_l (effect_flags_l i s)
  · exact gated_flags_l rfl

/-- Only a Runnable state with no Fatal mark steps (R103, R109). -/
theorem live_of_step {s t : State} (h : step s = .next t) : s.run = .runnable ∧ s.fatal = none :=
  live_iff.1 (step_cases h).1

/-- The frame of every port: the pc, the flags, the run state and the mark (R30, R40, R43, R44). -/
theorem usePort_frame {c : Config} {s t : State} {p : Port} (h : s.usePort c p = some t) :
    t.pc = s.pc ∧ t.flags = s.flags ∧ t.run = s.run ∧ t.fatal = s.fatal := by
  obtain ⟨r, v, rfl⟩ | ⟨a, v, m, -, rfl⟩ | ⟨a, w, m, -, rfl⟩ := usePort_cases h <;> simp

/-- A port changes the register file alone or the memory alone (R39, R40). -/
theorem usePort_mem_or_regs {c : Config} {s t : State} {p : Port} (h : s.usePort c p = some t) :
    t.mem = s.mem ∨ t.regs = s.regs := by
  obtain ⟨r, v, rfl⟩ | ⟨a, v, m, -, rfl⟩ | ⟨a, w, m, -, rfl⟩ := usePort_cases h
  · exact .inl (s.writeReg_mem r v)
  · exact .inr rfl
  · exact .inr rfl

/-- A port writes memory through the checked accesses alone, so the form and the bound are kept. -/
theorem usePort_mem_keeps {c : Config} {s t : State} {p : Port} (h : s.usePort c p = some t) (hw : s.mem.wf)
    (hb : s.mem.below c.memSize) : t.mem.wf ∧ t.mem.below c.memSize := by
  obtain ⟨r, v, rfl⟩ | ⟨a, v, m, hm, rfl⟩ | ⟨a, w, m, hm, rfl⟩ := usePort_cases h
  · rw [State.writeReg_mem]; exact ⟨hw, hb⟩
  · exact Memory.writeByte_keeps hm hw hb
  · exact Memory.writeWord_keeps hm hw hb

theorem usePort_inv {s t : State} {p : Port} (h : s.usePort params p = some t) (hs : s.Inv) : t.Inv := by
  obtain ⟨hw, hb, hmark⟩ := hs
  obtain ⟨hw', hb'⟩ := usePort_mem_keeps h hw hb
  obtain ⟨-, -, hrun, hfatal⟩ := usePort_frame h
  exact ⟨hw', hb', by rwa [hrun, hfatal]⟩

theorem readReg_eq_of_regs_eq {s t : State} (h : t.regs = s.regs) (r : Nat) : t.readReg r = s.readReg r := by
  simp only [State.readReg, h]

end Sys2Proof.Machine

namespace Sys2Proof
open Machine Claims

/-- Settles O55, from what a port can do (`usePort_cases`): a register write, or a checked write of memory. -/
theorem portsChangeOnlyRegistersOrMemory : Obligations.PortsChangeOnlyRegistersOrMemory := by
  intro s t p h
  obtain ⟨hpc, hflags, hrun, hfatal⟩ := usePort_frame h
  exact ⟨hpc, hflags, hrun, hfatal, (usePort_mem_or_regs h).imp_right readReg_eq_of_regs_eq, usePort_inv h⟩

/-- Settles O56, by the three calls: a port keeps all of it, a `set_pc` moves the pc alone and only before the first
step, and a clock step starts from a Runnable unmarked state and keeps L. -/
theorem hostCallsKeepTheRun : Obligations.HostCallsKeepTheRun := by
  intro h h' x hx
  obtain ⟨p, s, rfl, hs, rfl⟩ | ⟨a, rfl, hfirst, rfl⟩ | ⟨s, rfl, hs, rfl⟩ := Session.call_cases hx
  · obtain ⟨hpc, hflags, hrun, hfatal⟩ := usePort_frame hs
    exact ⟨fun _ hc => hrun.trans hc, fun _ hr => hfatal.trans hr, congrArg Flags.l hflags, fun hne => absurd hflags hne,
      fun hne => absurd hpc hne, id⟩
  · exact ⟨fun _ => id, fun _ => id, rfl, fun hne => absurd rfl hne, fun _ => .inr ⟨hfirst, rfl⟩, id⟩
  · obtain ⟨hrunnable, hunmarked⟩ := live_of_step hs
    refine ⟨fun c hc => ?_, fun r hr => ?_, step_flags_l hs, fun _ => rfl, fun _ => .inl rfl, fun _ => rfl⟩
    · rw [hrunnable] at hc; cases hc
    · rw [hunmarked] at hr; cases hr

end Sys2Proof
end

/-! ## Bytes, words and fields (R53, R54, R72, R73) -/

section
namespace Sys2Proof

theorem byteOfWord_eq (w : Word) (k : Nat) : byteOfWord w k = BitVec.ofNat 8 (w.toNat / 256 ^ k) := by
  rw [byteOfWord, pow_mul, show 2 ^ 8 = 256 from rfl]

/-- A word is the little-endian word of its bytes. -/
theorem wordOfBytes_byteOfWord (w : Word) :
    wordOfBytes (byteOfWord w 0) (byteOfWord w 1) (byteOfWord w 2) (byteOfWord w 3) = w := by
  apply BitVec.eq_of_toNat_eq
  simp only [wordOfBytes, byteOfWord, BitVec.toNat_ofNat]
  have := w.isLt
  omega

theorem toNat_wordOfBytes (b0 b1 b2 b3 : Byte) : (wordOfBytes b0 b1 b2 b3).toNat =
    b0.toNat + 256 * b1.toNat + 65536 * b2.toNat + 16777216 * b3.toNat := by
  simp only [wordOfBytes, BitVec.toNat_ofNat]
  omega

/-- The four bytes of the little-endian word of four bytes are those bytes. -/
theorem byteOfWord_wordOfBytes (b0 b1 b2 b3 : Byte) :
    byteOfWord (wordOfBytes b0 b1 b2 b3) 0 = b0 ∧ byteOfWord (wordOfBytes b0 b1 b2 b3) 1 = b1 ∧
    byteOfWord (wordOfBytes b0 b1 b2 b3) 2 = b2 ∧ byteOfWord (wordOfBytes b0 b1 b2 b3) 3 = b3 := by
  refine ⟨?_, ?_, ?_, ?_⟩ <;> apply BitVec.eq_of_toNat_eq <;>
    simp only [byteOfWord, BitVec.toNat_ofNat, toNat_wordOfBytes] <;> omega

theorem Raw.toWord_eq_some {r : Raw} {w : Word} :
    r.toWord = some w ↔ (r.opcode ≤ 63 ∧ r.operand ≤ 0x3FFFFF) ∧ w = BitVec.ofNat 32 r.number := by
  unfold Raw.toWord
  split_ifs with h <;> simp [h, eq_comm]

theorem Raw.toWord_eq_none {r : Raw} : r.toWord = none ↔ 63 < r.opcode ∨ 0x3FFFFF < r.operand := by
  unfold Raw.toWord
  split_ifs with h <;> simp <;> omega

theorem bit_of_eq_toNat {n k : Nat} {b : Bool} (h : n / 2 ^ k % 2 = b.toNat) : bit n k = b := by
  rw [bit, h, bool_toNat_beq_one]

/-- Legal fields come back from their word (R74). -/
theorem Raw.ofWord_of_toWord {r : Raw} {w : Word} (h : r.toWord = some w) : Raw.ofWord w = r := by
  obtain ⟨⟨hop, hopd⟩, rfl⟩ := Raw.toWord_eq_some.1 h
  obtain ⟨⟨c, l, z, g⟩, opcode, operand⟩ := r
  have hc := Bool.toNat_lt c
  have hl := Bool.toNat_lt l
  have hz := Bool.toNat_lt z
  have hg := Bool.toNat_lt g
  simp only [Raw.ofWord, Raw.number, BitVec.toNat_ofNat, Raw.mk.injEq, Req.mk.injEq, bits] at *
  refine ⟨⟨bit_of_eq_toNat ?_, bit_of_eq_toNat ?_, bit_of_eq_toNat ?_, bit_of_eq_toNat ?_⟩, ?_, ?_⟩ <;> omega

end Sys2Proof

namespace Sys2Proof.Machine

/-! ### Checked accesses, in and out of range -/

/-- A register write changes the register file alone (R22). -/
theorem State.writeReg_eq_regs_update (s : State) (r : Nat) (v : Byte) :
    s.writeReg r v = { s with regs := (s.writeReg r v).regs } := by
  unfold State.writeReg
  split <;> rfl

theorem Memory.readByte_eq_none {c : Config} {m : Memory} {a : Nat} (h : c.memSize ≤ a) : m.readByte c a = none := by
  rw [Memory.readByte, if_neg (by omega)]

theorem Memory.writeByte_eq_none {c : Config} {m : Memory} {a : Nat} {v : Byte} (h : c.memSize ≤ a) :
    m.writeByte c a v = none := by
  rw [Memory.writeByte, if_neg (by omega)]

/-- A checked read depends on the byte alone. -/
theorem Memory.readByte_congr {c : Config} {m m' : Memory} {a : Nat} (h : m'.get a = m.get a) :
    m'.readByte c a = m.readByte c a := by
  simp only [Memory.readByte, h]

theorem forall_lt_four {P : Nat → Prop} : (∀ k < 4, P k) ↔ P 0 ∧ P 1 ∧ P 2 ∧ P 3 :=
  ⟨fun h => ⟨h 0 (by decide), h 1 (by decide), h 2 (by decide), h 3 (by decide)⟩, fun ⟨h0, h1, h2, h3⟩ k hk => by
    interval_cases k <;> assumption⟩

/-- A word is read exactly when each of its little-endian bytes is (R53). -/
theorem Memory.readWord_eq_some_iff_bytes {c : Config} {m : Memory} {a : Nat} {w : Word} :
    m.readWord c a = some w ↔ ∀ k < 4, m.readByte c (byteAddr a k) = some (byteOfWord w k) := by
  simp only [Memory.readWord_eq_some, Memory.readByte_eq_some, forall_lt_four]
  constructor
  · rintro ⟨⟨h0, h1, h2, h3⟩, rfl⟩
    obtain ⟨e0, e1, e2, e3⟩ := byteOfWord_wordOfBytes (m.get (byteAddr a 0)) (m.get (byteAddr a 1))
      (m.get (byteAddr a 2)) (m.get (byteAddr a 3))
    exact ⟨⟨h0, e0⟩, ⟨h1, e1⟩, ⟨h2, e2⟩, ⟨h3, e3⟩⟩
  · rintro ⟨⟨h0, e0⟩, ⟨h1, e1⟩, ⟨h2, e2⟩, ⟨h3, e3⟩⟩
    exact ⟨⟨h0, h1, h2, h3⟩, by rw [← e0, ← e1, ← e2, ← e3, wordOfBytes_byteOfWord]⟩

theorem Memory.readWord_eq_none {c : Config} {m : Memory} {a : Nat} (h : ¬∀ k < 4, byteAddr a k < c.memSize) :
    m.readWord c a = none :=
  Option.eq_none_iff_forall_ne_some.2 fun _ hw => h (Memory.readWord_eq_some.1 hw).1

theorem Memory.writeWord_eq_none {c : Config} {m : Memory} {a : Nat} {w : Word}
    (h : ¬∀ k < 4, byteAddr a k < c.memSize) : m.writeWord c a w = none := by
  rw [Memory.writeWord, if_neg (by rwa [forall_lt_four] at h)]

/-- A word write in range sets the four little-endian bytes and no other (R54). -/
theorem Memory.writeWord_of_lt (c : Config) (m : Memory) (a : Nat) (w : Word) (h : ∀ k < 4, byteAddr a k < c.memSize) :
    ∃ m', m.writeWord c a w = some m' ∧ (∀ k < 4, m'.get (byteAddr a k) = byteOfWord w k) ∧
      ∀ b, (∀ k < 4, b ≠ byteAddr a k) → m'.get b = m.get b := by
  refine ⟨_, if_pos (forall_lt_four.1 h), ?_, fun b hb => ?_⟩
  · have hne : ∀ i < 4, ∀ j < 4, i ≠ j → byteAddr a i ≠ byteAddr a j := by unfold byteAddr; omega
    intro k hk
    interval_cases k <;> simp [Memory.get_set, hne]
  · simp [Memory.get_set, hb]

/-- A written word is read back (R53, R54). -/
theorem Memory.readWord_of_writeWord {c : Config} {m m' : Memory} {a : Nat} {w : Word}
    (h : m.writeWord c a w = some m') : m'.readWord c a = some w := by
  have hr : ∀ k < 4, byteAddr a k < c.memSize := by
    by_contra hr; rw [Memory.writeWord_eq_none hr] at h; cases h
  obtain ⟨m'', hw, hbytes, -⟩ := Memory.writeWord_of_lt c m a w hr
  obtain rfl : m' = m'' := Option.some.inj (h.symm.trans hw)
  exact Memory.readWord_eq_some_iff_bytes.2 fun k hk => Memory.readByte_eq_some.2 ⟨hr k hk, (hbytes k hk).symm⟩

/-- The 255 bytes of R5 hold a whole word at the addresses below 252, and at no other 8-bit address. -/
theorem byteAddr_lt_memSize (a : Byte) : (∀ k < 4, byteAddr a.toNat k < params.memSize) ↔ a.toNat < 252 := by
  have := a.isLt
  simp only [forall_lt_four, byteAddr, params]
  omega

/-- Below 252 an access does not wrap. -/
theorem byteAddr_of_lt {a : Byte} (h : a.toNat < 252) {k : Nat} (hk : k < 4) : byteAddr a.toNat k = a.toNat + k :=
  Nat.mod_eq_of_lt (by omega)

theorem fetch_eq_none {s : State} (h : 252 ≤ s.pc.toNat) : s.fetch = none :=
  Memory.readWord_eq_none (by rw [byteAddr_lt_memSize]; omega)

theorem fetch_eq_some_iff {s : State} {w : Word} : s.fetch = some w ↔ Claims.FetchesWord s w := by
  simp only [State.fetch, Memory.readWord_eq_some_iff_bytes, byteOfWord_eq, byteAddr]

/-! ### The memory ports (R40 to R42) -/

theorem portMemWrite_eq_some {c : Config} {s : State} {a v : Byte} {m : Memory}
    (h : s.mem.writeByte c a.toNat v = some m) : s.portMemWrite c a v = some (s.setMem m) := by
  rw [State.portMemWrite, h, Option.map_some]

theorem portMemWriteWord_eq_some {c : Config} {s : State} {a : Byte} {w : Word} {m : Memory}
    (h : s.mem.writeWord c a.toNat w = some m) : s.portMemWriteWord c a w = some (s.setMem m) := by
  rw [State.portMemWriteWord, h, Option.map_some]

theorem portMemWriteWord_eq_none {s : State} {a : Byte} {w : Word} (h : 252 ≤ a.toNat) :
    s.portMemWriteWord params a w = none := by
  rw [State.portMemWriteWord, Memory.writeWord_eq_none (by rw [byteAddr_lt_memSize]; omega), Option.map_none]

theorem portLoadInstruction_of_toWord {c : Config} {s : State} {a : Byte} {i : Raw} {w : Word}
    (h : i.toWord = some w) : s.portLoadInstruction c a i = s.portMemWriteWord c a w := by
  rw [State.portLoadInstruction, h]; rfl

theorem portLoadInstruction_of_toWord_none {c : Config} {s : State} {a : Byte} {i : Raw} (h : i.toWord = none) :
    s.portLoadInstruction c a i = none := by
  rw [State.portLoadInstruction, h]; rfl

theorem portCurrentInstruction_eq (s : State) : s.portCurrentInstruction params = s.fetch.map Raw.ofWord := rfl

theorem portLoadInstruction_eq_none {s : State} {a : Byte} {i : Raw}
    (h : 252 ≤ a.toNat ∨ 63 < i.opcode ∨ 0x3FFFFF < i.operand) : s.portLoadInstruction params a i = none := by
  cases hw : i.toWord with
  | none => exact portLoadInstruction_of_toWord_none hw
  | some w =>
    have hlegal : ¬(63 < i.opcode ∨ 0x3FFFFF < i.operand) := by simp [← Raw.toWord_eq_none, hw]
    rw [portLoadInstruction_of_toWord hw, portMemWriteWord_eq_none (h.resolve_right hlegal)]

end Sys2Proof.Machine

namespace Sys2Proof
open Machine Claims

/-- Settles O51: each port is its primitive on the state's memory, and both primitives read back what they write. -/
theorem memoryPortContract : Obligations.MemoryPortContract := by
  refine ⟨fun s a => ⟨rfl, rfl⟩, fun s a v => ⟨fun ha => ?_, fun ha => ?_⟩, fun s a w => ⟨fun ha => ?_, fun ha => ?_⟩⟩
  · have hm : s.mem.writeByte params a.toNat v = some (s.mem.set a.toNat v) := Memory.writeByte_eq_some.2 ⟨ha, rfl⟩
    refine ⟨_, portMemWrite_eq_some hm, hm, Memory.readByte_eq_some.2 ⟨ha, (Memory.get_set_same _ _ _).symm⟩,
      fun b hb => Memory.readByte_congr (Memory.get_set_other _ _ ?_)⟩
    exact fun e => hb (BitVec.eq_of_toNat_eq e)
  · exact ⟨Memory.readByte_eq_none ha, by rw [State.portMemWrite, Memory.writeByte_eq_none ha, Option.map_none]⟩
  · obtain ⟨m, hm, -, -⟩ := Memory.writeWord_of_lt params s.mem a.toNat w ((byteAddr_lt_memSize a).2 ha)
    exact ⟨m, portMemWriteWord_eq_some hm, hm, Memory.readWord_of_writeWord hm⟩
  · exact ⟨Memory.readWord_eq_none (by rw [byteAddr_lt_memSize]; omega), portMemWriteWord_eq_none ha⟩

/-- Settles O52: the load is a word write of the encoded fields (R41), the current instruction is the fields of what the
next fetch reads (R42), and legal fields come back from their word (R74). -/
theorem loadedInstructionIsCurrent : Obligations.LoadedInstructionIsCurrent := by
  refine ⟨fun s a i => ⟨fun ha hop hopd => ?_, portLoadInstruction_eq_none⟩, fun s w h => ?_, fun s h => ?_⟩
  · obtain ⟨w, hw⟩ : ∃ w, i.toWord = some w := ⟨_, Raw.toWord_eq_some.2 ⟨⟨hop, hopd⟩, rfl⟩⟩
    obtain ⟨m, hm, -, hother⟩ := Memory.writeWord_of_lt params s.mem a.toNat w ((byteAddr_lt_memSize a).2 ha)
    have hfetch : State.fetch { s with mem := m, pc := a } = some w := Memory.readWord_of_writeWord hm
    refine ⟨m, w, ?_, hw, fetch_eq_some_iff.1 hfetch, fun b hb => Memory.readByte_congr (hother b fun k hk => ?_), ?_⟩
    · rw [portLoadInstruction_of_toWord hw]; exact portMemWriteWord_eq_some hm
    · rw [byteAddr_of_lt ha hk]; omega
    · rw [portCurrentInstruction_eq, hfetch, Option.map_some, Raw.ofWord_of_toWord hw]
  · rw [portCurrentInstruction_eq, fetch_eq_some_iff.2 h, Option.map_some]
  · rw [portCurrentInstruction_eq, fetch_eq_none h, Option.map_none]

/-- Settles O50: the register port is `readReg` and `writeReg` at an 8-bit index, real or a black hole. -/
theorem registerPortContract : Obligations.RegisterPortContract := by
  intro s r v
  refine ⟨s.readReg_writeReg_same v, fun hr => ⟨s.writeReg_blackHole v hr, s.readReg_blackHole hr⟩, fun i hi => ?_, ?_⟩
  · exact s.readReg_writeReg_other v fun e => hi (BitVec.eq_of_toNat_eq e)
  · exact ⟨(s.writeReg r.toNat v).regs, s.writeReg_eq_regs_update r.toNat v⟩

end Sys2Proof
end

/-! ## Memory access (R51 to R54) -/

section
namespace Sys2Proof
open Machine

/-- Settles O40: the range check decides both accesses, and a byte set is the one byte that changes (`Memory.get_set`). -/
theorem byteAccess : Obligations.ByteAccess := by
  refine fun c m a v => ⟨fun ha => ?_, fun ha => ⟨Memory.readByte_eq_none ha, Memory.writeByte_eq_none ha⟩⟩
  refine ⟨⟨m.get a, Memory.readByte_eq_some.2 ⟨ha, rfl⟩⟩, m.set a v, Memory.writeByte_eq_some.2 ⟨ha, rfl⟩, ?_, ?_⟩
  · exact Memory.readByte_eq_some.2 ⟨ha, (m.get_set_same a v).symm⟩
  · exact fun b hb => Memory.readByte_congr (m.get_set_other v hb)

/-- Settles O41: one byte out of range fails the whole access; else the word read is the one whose little-endian bytes
are there (`Memory.readWord_eq_some_iff_bytes`), and a write sets those four alone (`Memory.writeWord_of_lt`). -/
theorem wordAccess : Obligations.WordAccess := by
  refine fun c m a => ⟨?_, fun hr => ⟨?_, fun w => ?_⟩⟩
  · rintro ⟨k, hk, hout⟩
    have hr : ¬∀ k < 4, byteAddr a k < c.memSize := fun hr => absurd (hr k hk) (Nat.not_lt.2 hout)
    exact ⟨Memory.readWord_eq_none hr, fun w => Memory.writeWord_eq_none hr⟩
  · obtain ⟨w, hw⟩ : ∃ w, m.readWord c a = some w := ⟨_, Memory.readWord_eq_some.2 ⟨hr, rfl⟩⟩
    exact ⟨w, hw, fun k hk => byteOfWord_eq w k ▸ Memory.readWord_eq_some_iff_bytes.1 hw k hk⟩
  · obtain ⟨m', hw, hbytes, hother⟩ := Memory.writeWord_of_lt c m a w hr
    refine ⟨m', hw, fun k hk => Memory.readByte_eq_some.2 ⟨hr k hk, ?_⟩, fun b hb => Memory.readByte_congr (hother b hb)⟩
    exact (byteOfWord_eq w k).symm.trans (hbytes k hk).symm

end Sys2Proof
end

/-! ## Encode, and decode of unassigned opcodes (R73, R74, R87, R107) -/

section
namespace Sys2Proof

/-- The sum of R73 over the fields of a word is the word: no bit is dropped (R74). -/
theorem Raw.number_ofWord (w : Word) : (Raw.ofWord w).number = w.toNat := by
  have := w.isLt
  simp only [Raw.number, Raw.ofWord, bit_toNat, bits]
  omega

theorem Raw.toWord_ofWord (w : Word) : (Raw.ofWord w).toWord = some w := by
  have hop := Raw.ofWord_opcode_lt w
  have hopd := Raw.ofWord_operand_lt w
  refine Raw.toWord_eq_some.2 ⟨⟨by omega, by omega⟩, ?_⟩
  rw [Raw.number_ofWord, BitVec.ofNat_toNat, BitVec.setWidth_eq]

theorem Raw.exists_toWord {r : Raw} (hop : r.opcode ≤ 63) (hopd : r.operand ≤ 0x3FFFFF) : ∃ w, r.toWord = some w :=
  ⟨_, Raw.toWord_eq_some.2 ⟨⟨hop, hopd⟩, rfl⟩⟩

/-- The word of legal fields is their sum (R73): read back, the fields have the word's number. -/
theorem Raw.toNat_of_toWord {r : Raw} {w : Word} (h : r.toWord = some w) : w.toNat = r.number := by
  rw [← Raw.number_ofWord, Raw.ofWord_of_toWord h]

/-- Settles O4: the fields of a word sum to it (`Raw.number_ofWord`), and legal fields come back from their word. -/
theorem wordFieldsRoundTrip : Obligations.WordFieldsRoundTrip := by
  refine ⟨Raw.toWord_ofWord, fun r hop hopd => ?_⟩
  obtain ⟨w, hw⟩ := Raw.exists_toWord hop hopd
  exact ⟨w, hw, Raw.ofWord_of_toWord hw⟩

theorem encodeWith_eq_none {om : OpcodeMap} {i : Instr} (h : ¬i.operand.wf = true) : encodeWith om i = none := if_neg h

/-- Settles O5: a legal word is the sum of its fields (`Raw.toNat_of_toWord`), and a sub-field over its width makes its
format ill-formed, which encode rejects. -/
theorem encodeRejectsWideFields : Obligations.EncodeRejectsWideFields := by
  refine ⟨fun r hop hopd => ?_, fun r => Raw.toWord_eq_none.2, fun om i hwide => encodeWith_eq_none fun hwf => ?_⟩
  · obtain ⟨w, hw⟩ := Raw.exists_toWord hop hopd
    exact ⟨w, hw, Raw.toNat_of_toWord hw⟩
  · cases hi : i.operand <;>
      simp only [hi, Operand.wf, Rd.wf, Ri.wf, Bo.wf, Bi.wf, J.wf, JR.wf, regOk, Bool.and_eq_true,
        decide_eq_true_eq] at hwide hwf <;> omega

/-- The numbers no instruction holds (R86, R87). -/
theorem instructionOf_eq_none : ∀ n < 64, instructionOf opcodeMap n = none ↔ n = 0 ∨ 35 ≤ n := by decide

theorem decode_eq_error_iff (w : Word) :
    (∃ n, decode w = .error (.unassigned n)) ↔ instructionOf opcodeMap (Raw.ofWord w).opcode = none := by
  simp only [decode, decodeWith]
  cases instructionOf opcodeMap (Raw.ofWord w).opcode <;> simp

/-- A word has no instruction exactly when its opcode is one of the unassigned numbers (R87). -/
theorem decode_unassigned_iff (w : Word) : (∃ n, decode w = .error (.unassigned n)) ↔
    (w.toNat / 2 ^ 22 % 64 = 0 ∨ 35 ≤ w.toNat / 2 ^ 22 % 64) :=
  (decode_eq_error_iff w).trans (instructionOf_eq_none _ (Raw.ofWord_opcode_lt w))

end Sys2Proof

namespace Sys2Proof.Machine
open Claims

/-- The gate of a word's request bits asks what its top four bits ask (R71, R100). -/
theorem gate_ofWord {w : Word} {f : Flags} : gate (Raw.ofWord w).req f = true ↔ WordGateOpen w f := by
  simp only [gate_eq_true, Raw.ofWord, bit_eq_testBit, WordGateOpen, BitVec.getLsbD]

/-- The step of a live state runs the word its pc reads (R103). -/
theorem step_of_fetchesWord {s : State} {w : Word} (hlive : Live s) (hw : FetchesWord s w) : step s = runWord w s := by
  rw [step_of_live (live_iff.2 hlive), clock, fetch_eq_some_iff.2 hw]

theorem runWord_of_error {s : State} {w : Word} {e : DecodeError} (h : decode w = .error e) :
    runWord w s = .next (gated (Raw.ofWord w).req s (s.raiseHalt .unimplemented)) := by
  rw [runWord, h]

end Sys2Proof.Machine

namespace Sys2Proof
open Machine Claims

/-- Settles O11: the assigned numbers are 1 to 34 (`instructionOf_eq_none`), and an unassigned word past the gate
halts. -/
theorem unassignedOpcodeHalts : Obligations.UnassignedOpcodeHalts := by
  refine ⟨decode_unassigned_iff, fun s w hlive hw hgate hop => ?_⟩
  obtain ⟨n, hn⟩ := (decode_unassigned_iff w).2 hop
  rw [step_of_fetchesWord hlive hw, runWord_of_error hn, gated_open (gate_ofWord.2 hgate)]
  rfl

end Sys2Proof
end

/-! ## What an instruction does, by its mnemonic and operand (R82, R85) -/

section
namespace Sys2Proof.Machine
open Claims

/-- The ALU operation of an ALU instruction (R122); a value nothing reads for any other. -/
def aluOpOf : Mnemonic → AluOp
  | .shl | .shli => .shl
  | .shr | .shri => .shr
  | .and | .andi => .and
  | .or | .ori => .or
  | .xor | .xori => .xor
  | .not | .noti => .not
  | .sub | .subi => .sub
  | .mul | .muli => .mul
  | _ => .add

/-- What an instruction of a mnemonic does with its operand once gated in: one shared operation per format. -/
def operandEffect (m : Mnemonic) (s : State) : Operand → State
  | .rd o => aluRd params (aluOpOf m) o s
  | .ri o => aluRi params (aluOpOf m) o s
  | .bo o => if m.isLoad then loadBo params (transferWidth m) o s else storeBo params (transferWidth m) o s
  | .bi o => if m.isLoad then loadBi params (transferWidth m) o s else storeBi params (transferWidth m) o s
  | .j o =>
    match m with
    | .int => s.raiseHalt .interrupt
    | .jmp => jumpRelative o.val.val s
    | _ => jumpAbsolute params o.val.val s
  | .jr o => jumpAbsolute params (s.readReg o.dest).toNat s

theorem effect_eq_operandEffect (i : Instr) (s : State) : effect i s = operandEffect i.mnemonic s i.operand := by
  cases i <;> rfl

/-- The shared operations read a register number, a value and an offset, never an ignored bit or a sign (R82, R85). -/
theorem operandEffect_congr {m : Mnemonic} {p p' : Operand} (h : SameMeaning m p p') (s : State) :
    operandEffect m s p = operandEffect m s p' := by
  cases p <;> cases p' <;> try exact h.elim
  case rd.rd =>
    obtain ⟨hdest, hx, hy⟩ := h
    simp only [operandEffect, aluRd, hdest, hx, hy]
  case ri.ri =>
    obtain ⟨hdest, hx, himm⟩ := h
    simp only [operandEffect, aluRi, hdest, hx, himm]
  case bo.bo => cases h; rfl
  case bi.bi =>
    obtain ⟨htarget, hbase, hindex⟩ := h
    simp only [operandEffect, loadBi, storeBi, State.eaBi, htarget, hbase, hindex]
  case j.j =>
    obtain rfl | hval := h
    · rfl
    · simp only [operandEffect, hval]
  case jr.jr => exact congrArg (fun r => jumpAbsolute params (s.readReg r).toNat s) h

end Sys2Proof.Machine

namespace Sys2Proof
open Machine

/-- Settles O7: what an instruction does is a function of its mnemonic and operand (`effect_eq_operandEffect`), and no
format's operation reads more than the values `SameMeaning` compares. -/
theorem ignoredBitsHaveNoEffect : Obligations.IgnoredBitsHaveNoEffect := by
  intro i j hm hq h s
  have he : effect i s = effect j s := by
    rw [effect_eq_operandEffect, effect_eq_operandEffect, ← hm, operandEffect_congr h]
  exact ⟨_, exec_eq i s, by rw [exec_eq, hq, he]⟩

end Sys2Proof
end

/-! ## The ALU's completed instruction, and the pseudo-instructions (R92, R122 to R127) -/

section
namespace Sys2Proof.Machine
open Claims

theorem fitsByte_iff {v : Int} : fitsByte v = true ↔ 0 ≤ v ∧ v ≤ 255 := by simp [fitsByte]

/-- The number of the result byte is the unwrapped value modulo 256 (R123). -/
theorem resultByte_toNat (w : ShiftWrap) (op : AluOp) (a b : Nat) :
    ((resultByte w op a b).toNat : Int) = preResult w op a b % 256 := by
  rw [resultByte, BitVec.toNat_ofInt]
  omega

theorem advance_pc_toNat (s : State) : (s.advance.pc.toNat : Int) = (s.pc.toNat + 4) % 256 := by
  rw [State.advance_pc, BitVec.toNat_add]
  rfl

/-- Write-back under `EXACT_MOD_256` leaves the operation's exact result modulo 256 with its flags (R122 to R127). -/
theorem aluWriteBack_done {c : Config} (hc : c.shiftWrap = .exactMod256) (op : AluOp) (dest a b : Nat) (s : State) :
    AluDone dest (exactResult op a b) s (aluWriteBack c op dest a b s) := by
  have hbyte : ((resultByte .exactMod256 op a b).toNat : Int) = exactResult op a b % 256 := resultByte_toNat ..
  constructor
  case result => intro hd; simpa [hd, hc] using hbyte
  case blackHole => intro hd; simp [hd, s.readReg_blackHole hd]
  case carry => simp [hc, aluFlags, carryOf, preResult, ← fitsByte_iff]
  case zero => simp only [aluWriteBack_flags, hc, aluFlags, beq_iff_eq, ← hbyte, BitVec.toNat_eq]; simp
  case greater => simp only [aluWriteBack_flags, hc, aluFlags, decide_eq_true_eq, ← hbyte]; omega
  case less => simp [aluFlags_l]
  case pc => rw [aluWriteBack_pc]; exact advance_pc_toNat s
  case otherRegisters => intro r hr; simp [hr]
  case memory => intro a; simp
  case run => simp
  case fatal => simp

/-- A gated-in register-register instruction completes with its exact result (R120, R127). -/
theorem exec_rd_done {i : Instr} {s : State} {op : AluOp} {o : Rd} (hi : effect i s = aluRd params op o s)
    (hg : GateOpen i.req s.flags) : ∃ t, exec i s = .next t ∧
      AluDone o.dest (exactResult op (s.readReg o.x).toNat (s.readReg o.y).toNat) s t :=
  ⟨_, by rw [exec_open (gate_eq_true.2 hg), hi, aluRd_eq], aluWriteBack_done rfl ..⟩

/-- A gated-in register-immediate instruction that passes the check of R121 completes with its exact result. -/
theorem exec_ri_done {i : Instr} {s : State} {op : AluOp} {o : Ri} (hi : effect i s = aluRi params op o s)
    (hg : GateOpen i.req s.flags) (himm : 0 ≤ o.imm.val ∧ o.imm.val ≤ 255)
    (hres : 0 ≤ exactResult op (s.readReg o.x).toNat o.imm.val.toNat ∧
      exactResult op (s.readReg o.x).toNat o.imm.val.toNat ≤ 255) :
    ∃ t, exec i s = .next t ∧ AluDone o.dest (exactResult op (s.readReg o.x).toNat o.imm.val.toNat) s t := by
  have hlegal : riLegal params op (s.readReg o.x).toNat o.imm.val = true := by
    simp [riLegal, fitsByte_iff.2 himm, preResult, params, fitsByte_iff.2 hres]
  exact ⟨_, by rw [exec_open (gate_eq_true.2 hg), hi, aluRi, if_pos hlegal], aluWriteBack_done rfl ..⟩

theorem gateOpen_none (f : Flags) : GateOpen .none f := by simp [GateOpen, Req.none]

theorem readReg_zero (s : State) : s.readReg 0 = 0 := s.readReg_blackHole (by decide)

/-- A gated-in relative jump adds its offset to the pc modulo 256 and changes nothing else (R200). -/
theorem exec_jmp_open {q : Req} {s : State} (hg : GateOpen q s.flags) (o : J) : exec (.jmp q o) s =
    .next { s with pc := BitVec.ofNat 8 (((s.pc.toNat : Int) + o.val.val) % 256).toNat } := by
  have hpc : BitVec.ofInt 8 ((s.pc.toNat : Int) + o.val.val) =
      BitVec.ofNat 8 (((s.pc.toNat : Int) + o.val.val) % 256).toNat := by
    apply BitVec.eq_of_toNat_eq
    simp only [BitVec.toNat_ofInt, BitVec.toNat_ofNat]
    omega
  have hi : effect (.jmp q o) s = s.setPc (BitVec.ofInt 8 ((s.pc.toNat : Int) + o.val.val)) := rfl
  rw [exec_open (i := .jmp q o) (gate_eq_true.2 hg), hi, hpc, State.setPc]

/-- The pc 4 on, as a relative jump computes it. -/
theorem pc_add_four (p : Byte) : BitVec.ofNat 8 (((p.toNat : Int) + 4) % 256).toNat = p + 4 := by
  apply BitVec.eq_of_toNat_eq
  have hfour : (4 : Byte).toNat = 4 := rfl
  simp only [BitVec.toNat_ofNat, BitVec.toNat_add, hfour]
  omega

end Sys2Proof.Machine

namespace Sys2Proof
open Machine Claims

/-- Settles O47: each pseudo-instruction is the instruction it expands to, at operands whose exact result is the value
named: `0 + v`, `x | 0` and `0 & 0`, with `r0` reading 0. -/
theorem pseudoInstructions : Obligations.PseudoInstructions := by
  refine ⟨fun q s hg => ⟨?_, ?_, fun d v hv => ?_, fun d x => ?_, fun d => ?_, fun off => exec_jmp_open hg _⟩,
    fun q off s hg => ?_, fun s => ?_⟩
  · rw [← pc_add_four]; exact exec_jmp_open hg ⟨⟨false, 4⟩⟩
  · exact exec_open (gate_eq_true.2 hg)
  · have h := exec_ri_done (i := Pseudo.li q d v) (s := s) rfl hg
    simp only [readReg_zero, SignMag.val_mk_false, Int.toNat_natCast, exactResult] at h
    simpa using h ⟨by omega, by omega⟩ (by simp; omega)
  · simpa [readReg_zero, exactResult] using exec_rd_done (i := Pseudo.mov q d x) (s := s) rfl hg
  · simpa [readReg_zero, exactResult] using exec_rd_done (i := Pseudo.clr q d) (s := s) rfl hg
  · exact exec_shut (Bool.eq_false_iff.2 fun h => hg (gate_eq_true.1 h))
  · obtain ⟨t, ht, hdone⟩ := exec_rd_done (i := .add .none ⟨0, 0, 0, 0⟩) (s := s) rfl (gateOpen_none _)
    simp only [readReg_zero, exactResult] at hdone
    exact ⟨t, ht, hdone.zero.2 rfl, by simpa using hdone.greater.not, by simpa using hdone.carry.not⟩

end Sys2Proof
end

/-! ## The gate of a fetched word, and the states a step starts from (R100 to R104, R109) -/

section
namespace Sys2Proof.Machine
open Claims

theorem gate_eq_false {q : Req} {f : Flags} : gate q f = false ↔ ¬GateOpen q f :=
  Bool.eq_false_iff.trans gate_eq_true.not

/-- Whatever its opcode, assigned or not, a word's effect stands behind the gate of its request bits (R102, R103). -/
theorem runWord_eq_gated (w : Word) (s : State) : ∃ t, runWord w s = .next (gated (Raw.ofWord w).req s t) := by
  cases hd : decode w with
  | ok i =>
    obtain ⟨-, hreq, -⟩ := decodeWith_ok hd
    exact ⟨effect i s, by rw [runWord, hd, ← hreq]; exact exec_eq i s⟩
  | error e => exact ⟨_, runWord_of_error hd⟩

/-- A word whose requests are not met is skipped (R102). -/
theorem runWord_shut {w : Word} {s : State} (h : ¬WordGateOpen w s.flags) : runWord w s = .next s.advance := by
  obtain ⟨t, ht⟩ := runWord_eq_gated w s
  rw [ht, gated_shut (Bool.eq_false_iff.2 fun hg => h (gate_ofWord.1 hg))]

theorem exists_fetch {s : State} (h : s.pc.toNat < 252) : ∃ w, s.fetch = some w :=
  ⟨_, Memory.readWord_eq_some.2 ⟨(byteAddr_lt_memSize s.pc).2 h, rfl⟩⟩

theorem step_of_fetch_eq_none {s : State} (hlive : Live s) (h : s.fetch = none) :
    step s = .next (s.raiseFatal .fetchOutOfRange) := by
  rw [step_of_live (live_iff.2 hlive), clock, h]

end Sys2Proof.Machine

namespace Sys2Proof
open Machine Claims

/-- Settles O9: `exec` puts every effect behind its gate (`exec_shut`), and a fetched word of any opcode, decoded or not,
is behind the gate of its top four bits (`runWord_shut`). -/
theorem gatedOffOnlyAdvancesPc : Obligations.GatedOffOnlyAdvancesPc := by
  refine ⟨fun i s hshut => exec_shut (gate_eq_false.2 hshut), fun s w hlive hw hshut => ?_⟩
  rw [step_of_fetchesWord hlive hw]
  exact runWord_shut hshut

/-- Settles O8: `gate` is the four implications of R100 (`gate_eq_true`). -/
theorem gateNeedsEveryRequestedFlag : Obligations.GateNeedsEveryRequestedFlag := fun _ _ => gate_eq_true

/-- Settles O12: all four bytes at the pc exist exactly below 252 (`byteAddr_lt_memSize`), at any alignment. -/
theorem fetchOutsideMemoryIsFatal : Obligations.FetchOutsideMemoryIsFatal := by
  refine fun s hlive => ⟨fun hout => step_of_fetch_eq_none hlive (fetch_eq_none hout), fun hin => ?_⟩
  obtain ⟨w, hw⟩ := exists_fetch hin
  exact ⟨w, hw, fetch_eq_some_iff.1 hw⟩

/-- Settles O13: a step that answers a next state starts Runnable and unmarked (`live_of_step`). -/
theorem noStepFromTerminalStates : Obligations.NoStepFromTerminalStates := by
  constructor
  · intro s c hhalted t hstep
    obtain ⟨hrun, -⟩ := live_of_step hstep
    cases hhalted.symm.trans hrun
  · intro s r hmark t hstep
    obtain ⟨-, hfatal⟩ := live_of_step hstep
    cases hmark.symm.trans hfatal

end Sys2Proof
end

/-! ## The ALU instructions (R121 to R148) -/

section
namespace Sys2Proof.Machine
open Claims

/-- Under `AMOUNT_MOD_8` an amount of 8 or more shifts by itself modulo 8; the carry of 1 is PRESUMED (GK1). -/
theorem amountMod8_shift {a b : Nat} (ha : a < 256) (hb : 8 ≤ b) :
    (resultByte .amountMod8 .shl a b).toNat = (a * 2 ^ (b % 8)) % 256 ∧ carryOf .amountMod8 .shl a b = true ∧
    (resultByte .amountMod8 .shr a b).toNat = a / 2 ^ (b % 8) ∧ carryOf .amountMod8 .shr a b = true := by
  have hshl : ((resultByte .amountMod8 .shl a b).toNat : Int) = ((a * 2 ^ (b % 8) : Nat) : Int) % 256 :=
    resultByte_toNat ..
  have hshr : ((resultByte .amountMod8 .shr a b).toNat : Int) = ((a / 2 ^ (b % 8) : Nat) : Int) % 256 :=
    resultByte_toNat ..
  have hlt : a / 2 ^ (b % 8) < 256 := (Nat.div_le_self ..).trans_lt ha
  norm_cast at hshl hshr
  exact ⟨hshl, decide_eq_true hb, hshr.trans (Nat.mod_eq_of_lt hlt), decide_eq_true hb⟩

/-- Under `BOTH` the immediate and the exact result must fit a byte (R121). -/
theorem riLegal_both_iff {op : AluOp} {a : Nat} {v : Int} : riLegal params op a v = true ↔
    (0 ≤ v ∧ v ≤ 255) ∧ 0 ≤ exactResult op a v.toNat ∧ exactResult op a v.toNat ≤ 255 := by
  simp [riLegal, fitsByte_iff, params, preResult]

/-- Under `OPERAND` the immediate alone must fit a byte (R121). -/
theorem riLegal_operand_iff {op : AluOp} {a : Nat} {v : Int} :
    riLegal { params with riFatal := .operand } op a v = true ↔ 0 ≤ v ∧ v ≤ 255 := by
  simp [riLegal, fitsByte_iff]

theorem aluRi_of_legal {c : Config} {op : AluOp} {o : Ri} {s : State}
    (h : riLegal c op (s.readReg o.x).toNat o.imm.val = true) :
    aluRi c op o s = aluWriteBack c op o.dest (s.readReg o.x).toNat o.imm.val.toNat s := if_pos h

theorem aluRi_of_illegal {c : Config} {op : AluOp} {o : Ri} {s : State}
    (h : ¬riLegal c op (s.readReg o.x).toNat o.imm.val = true) :
    aluRi c op o s = { s with fatal := some .riImmediate } := if_neg h

/-- A gated-in register-immediate instruction that fails the check of R121 only sets the Fatal mark. -/
theorem exec_ri_fatal {i : Instr} {s : State} {op : AluOp} {o : Ri} (hi : effect i s = aluRi params op o s)
    (hg : GateOpen i.req s.flags) (hillegal : ¬riLegal params op (s.readReg o.x).toNat o.imm.val = true) :
    exec i s = .next { s with fatal := some .riImmediate } := by
  rw [exec_open (gate_eq_true.2 hg), hi, aluRi_of_illegal hillegal]

/-- A constructor whose effect is the register-register operation `op` obeys the rule of `op`'s exact result.
The opcode, the mnemonic, the request bits and the effect of a constructor hold by definition. -/
theorem rdRule_of_effect {m : Mnemonic} {opcode : Nat} {instr : Req → Rd → Instr} {op : AluOp} {p : Nat → Nat → Int}
    (hp : ∀ a b, exactResult op a b = p a b) (hopcode : (opcodeMap m).toNat = opcode := by rfl)
    (hm : ∀ q o, (instr q o).mnemonic = m := by intros; rfl) (hreq : ∀ q o, (instr q o).req = q := by intros; rfl)
    (heffect : ∀ q o s, effect (instr q o) s = aluRd params op o s := by intros; rfl) :
    RdRule m opcode instr p := by
  refine ⟨hopcode, fun q o s => ⟨hm q o, fun hg => ?_⟩⟩
  rw [← hp]
  exact exec_rd_done (heffect q o s) (by rwa [hreq])

/-- A constructor whose effect is the register-immediate operation `op` obeys the rule of `op`'s exact result, under
`BOTH` through `exec` and under `OPERAND` through the shared operation. The same four facts hold by definition. -/
theorem riRule_of_effect {m : Mnemonic} {opcode : Nat} {instr : Req → Ri → Instr} {op : AluOp} {p : Nat → Nat → Int}
    (hp : ∀ a b, exactResult op a b = p a b) (hopcode : (opcodeMap m).toNat = opcode := by rfl)
    (hm : ∀ q o, (instr q o).mnemonic = m := by intros; rfl) (hreq : ∀ q o, (instr q o).req = q := by intros; rfl)
    (heffect : ∀ q o s, effect (instr q o) s = aluRi params op o s := by intros; rfl) :
    RiRule m opcode instr op p := by
  refine ⟨hopcode, fun q o s => ⟨hm q o, fun hg => ?_⟩, fun o s => ?_⟩ <;> rw [← hp]
  · replace hg : GateOpen (instr q o).req s.flags := by rwa [hreq]
    rw [← and_assoc]
    exact ⟨fun ⟨himm, hres⟩ => exec_ri_done (heffect q o s) hg himm hres,
      fun hbad => exec_ri_fatal (heffect q o s) hg (riLegal_both_iff.not.2 hbad)⟩
  · refine ⟨fun himm => ?_, fun hbad => aluRi_of_illegal (riLegal_operand_iff.not.2 hbad)⟩
    rw [aluRi_of_legal (riLegal_operand_iff.2 himm)]
    exact aluWriteBack_done rfl ..

/-- R122's left shift, over the integers. -/
theorem exactResult_shl (a b : Nat) : exactResult .shl a b = (a : Int) * 2 ^ b := by simp [exactResult]

/-- R122's product, over the integers. -/
theorem exactResult_mul (a b : Nat) : exactResult .mul a b = (a : Int) * b := Nat.cast_mul a b

end Sys2Proof.Machine

namespace Sys2Proof
open Machine

/-- Settles O19: neither an effect nor a skip writes L (`step_flags_l`). -/
theorem lessIsNeverWritten : Obligations.LessIsNeverWritten := fun _ _ => step_flags_l

/-- Settles O26: both run `aluRd`, and `amountMod8_shift` gives the `AMOUNT_MOD_8` results. -/
theorem registerShifts : Obligations.RegisterShifts :=
  ⟨rdRule_of_effect exactResult_shl,
   rdRule_of_effect (op := .shr) fun _ _ => rfl,
   fun _ _ => amountMod8_shift⟩

/-- Settles O27: each runs `aluRd`, whose exact result is the statement's by definition (R122). -/
theorem registerLogic : Obligations.RegisterLogic :=
  ⟨rdRule_of_effect (op := .and) fun _ _ => rfl,
   rdRule_of_effect (op := .or) fun _ _ => rfl,
   rdRule_of_effect (op := .xor) fun _ _ => rfl,
   rdRule_of_effect (op := .not) fun _ _ => rfl⟩

/-- Settles O28: each runs `aluRd`; the product is taken over the integers (`exactResult_mul`). -/
theorem registerArithmetic : Obligations.RegisterArithmetic :=
  ⟨rdRule_of_effect (op := .add) fun _ _ => rfl,
   rdRule_of_effect (op := .sub) fun _ _ => rfl,
   rdRule_of_effect exactResult_mul⟩

/-- Settles O29: both run `aluRi`, legal or Fatal by R121 (`riLegal_both_iff`, `riLegal_operand_iff`). -/
theorem immediateShifts : Obligations.ImmediateShifts :=
  ⟨riRule_of_effect exactResult_shl,
   riRule_of_effect fun _ _ => rfl⟩

/-- Settles O30: each runs `aluRi`, whose check checks the immediate whatever the operation, so NOTI is checked too. -/
theorem immediateLogic : Obligations.ImmediateLogic :=
  ⟨riRule_of_effect fun _ _ => rfl,
   riRule_of_effect fun _ _ => rfl,
   riRule_of_effect fun _ _ => rfl,
   riRule_of_effect fun _ _ => rfl⟩

/-- Settles O31: each runs `aluRi`, and a difference below 0 or a sum or product above 255 fails the check of R121. -/
theorem immediateArithmetic : Obligations.ImmediateArithmetic :=
  ⟨riRule_of_effect fun _ _ => rfl,
   riRule_of_effect fun _ _ => rfl,
   riRule_of_effect exactResult_mul⟩

end Sys2Proof
end

/-! ## Effective addresses, loads and stores (R170 to R191) -/

section
namespace Sys2Proof.Machine
open Claims

/-! ### How a transfer of `n` bytes ends (R173 to R177) -/

/-- The transfer from `s` ended in `t` with its first `j` bytes committed, as `done` says: all of them and the pc moved
on, or those before its first failing byte and the run halted there with the pc unmoved. -/
def TransferEnds (n target : Nat) (ea : Byte) (done : Nat → Nat → Byte → State → State → Prop) (s t : State) : Prop :=
  ∃ j ≤ n, (∀ i < j, ByteOk target ea i) ∧ done j target ea s t ∧
    ((j = n ∧ t.pc = s.pc + 4 ∧ t.run = s.run) ∨
     (j < n ∧ ¬ByteOk target ea j ∧ t.pc = s.pc ∧ t.run = .halted (ByteCause target j)))

section Ends
variable {n target : Nat} {ea : Byte} {done : Nat → Nat → Byte → State → State → Prop} {s t : State}

theorem TransferEnds.complete (h : TransferEnds n target ea done s t) (hok : ∀ k < n, ByteOk target ea k) :
    done n target ea s t ∧ t.pc = s.pc + 4 ∧ t.run = s.run := by
  obtain ⟨j, -, -, hdone, ⟨rfl, hpc, hrun⟩ | ⟨hlt, hfail, -⟩⟩ := h
  · exact ⟨hdone, hpc, hrun⟩
  · exact absurd (hok j hlt) hfail

/-- The byte a transfer halts at is its first failing one. -/
theorem TransferEnds.halt (h : TransferEnds n target ea done s t) {k : Nat} (hk : k < n)
    (hbefore : ∀ i < k, ByteOk target ea i) (hfail : ¬ByteOk target ea k) :
    done k target ea s t ∧ t.pc = s.pc ∧ t.run = .halted (ByteCause target k) := by
  obtain ⟨j, -, hok, hdone, hend⟩ := h
  have hjk : j ≤ k := Nat.not_lt.1 fun hlt => hfail (hok k hlt)
  obtain ⟨rfl, -⟩ | ⟨-, hfail', hpc, hrun⟩ := hend
  · omega
  · obtain rfl : j = k := hjk.eq_of_not_lt fun hlt => hfail' (hbefore j hlt)
    exact ⟨hdone, hpc, hrun⟩

/-- What `loadBytes_cases` and `storeBytes_cases` have in common, with `after j` the state after `j` bytes: the cause of
a halt is the register check's exactly when that check fails (R175). -/
theorem transferEnds_of_cases {after : Nat → State} (hpc : ∀ j, (after j).pc = s.pc) (hrun : ∀ j, (after j).run = s.run)
    (hdone : ∀ j ≤ n, (∀ i < j, ByteOk target ea i) → ∀ p r, done j target ea s { after j with pc := p, run := r })
    (hcases : ∃ j ≤ n, (∀ i < j, target + (0 + i) < params.copyRegLimit ∧ byteAddr ea.toNat (0 + i) < params.memSize) ∧
      ((j = n ∧ t = (after j).advance) ∨
       (j < n ∧ params.copyRegLimit ≤ target + (0 + j) ∧ t = (after j).raiseHalt .copyRegInvalid) ∨
       (j < n ∧ target + (0 + j) < params.copyRegLimit ∧ params.memSize ≤ byteAddr ea.toNat (0 + j) ∧
          t = (after j).raiseHalt .memOutOfRange))) :
    TransferEnds n target ea done s t := by
  obtain ⟨j, hj, hok, hend⟩ := hcases
  simp only [Nat.zero_add] at hok hend
  refine ⟨j, hj, hok, ?_⟩
  obtain ⟨rfl, rfl⟩ | ⟨hlt, hreg, rfl⟩ | ⟨hlt, hreg, hmem, rfl⟩ := hend
  · exact ⟨hdone j hj hok _ _, .inl ⟨rfl, congrArg (· + 4) (hpc j), hrun j⟩⟩
  · have hcause : ByteCause target j = .copyRegInvalid := if_pos hreg
    exact ⟨hdone j hj hok _ _, .inr ⟨hlt, fun h => Nat.not_lt.2 hreg h.1, hpc j, by rw [hcause]; rfl⟩⟩
  · have hcause : ByteCause target j = .memOutOfRange := if_neg (Nat.not_le.2 hreg)
    exact ⟨hdone j hj hok _ _, .inr ⟨hlt, fun h => Nat.not_lt.2 hmem h.2, hpc j, by rw [hcause]; rfl⟩⟩

/-! ### The bytes a transfer commits (R173, R174) -/

/-- Registers are read from the register file alone (R21). -/
theorem readReg_pc_run_update (s : State) (p : Byte) (r : RunState) (i : Nat) :
    State.readReg { s with pc := p, run := r } i = s.readReg i := rfl

theorem copiedIn_loadedBytes (hok : ∀ i < n, ByteOk target ea i) (p : Byte) (r : RunState) :
    LoadedBytes n target ea s { copiedIn ea target n 0 s with pc := p, run := r } := by
  constructor
  case loaded =>
    intro k hk hreal
    rw [readReg_pc_run_update, copiedIn_readReg, if_pos (by omega), Nat.add_sub_cancel_left]
    exact (Memory.readByte_eq_some.2 ⟨(hok k hk).2, rfl⟩).symm
  case otherRegisters =>
    intro i hi
    rw [readReg_pc_run_update, copiedIn_readReg, if_neg]
    rintro ⟨hlo, hhi, hreal⟩
    obtain hout | hhole := hi
    · exact hout (i - target) (by omega) (by omega)
    · exact hhole hreal
  case flags => simp
  case memory => intro a; simp
  case fatal => simp

/-- Up to 256 bytes from one address are distinct, so each keeps what was stored in it. -/
theorem storedOut_storedBytes (hn : n ≤ 256) (hok : ∀ i < n, ByteOk target ea i) (p : Byte) (r : RunState) :
    StoredBytes n target ea s { s.setMem (storedOut ea target s n 0 s.mem) with pc := p, run := r } := by
  constructor
  case stored =>
    intro k hk
    have hget := storedOut_get_stored ea target s n 0 s.mem k hk (by omega)
    rw [Nat.zero_add] at hget
    exact Memory.readByte_eq_some.2 ⟨(hok k hk).2, hget.symm⟩
  case otherBytes =>
    intro a ha
    refine Memory.readByte_congr (storedOut_get_other ea target s n 0 s.mem a fun i hi => ?_)
    rw [Nat.zero_add]
    exact ha i hi
  case registers => exact fun _ => rfl
  case flags => rfl
  case fatal => rfl

end Ends

theorem loadBytes_ends (n target : Nat) (ea : Byte) (s : State) :
    TransferEnds n target ea LoadedBytes s (loadBytes params ea target n 0 s) :=
  transferEnds_of_cases (after := fun j => copiedIn ea target j 0 s) (fun j => copiedIn_pc ea target j 0 s)
    (fun j => copiedIn_run ea target j 0 s) (fun _ _ => copiedIn_loadedBytes) (loadBytes_cases params ea target n 0 s)

theorem storeBytes_ends {n : Nat} (hn : n ≤ 256) (target : Nat) (ea : Byte) (s : State) :
    TransferEnds n target ea StoredBytes s (storeBytes params ea target n 0 s) :=
  transferEnds_of_cases (after := fun j => s.setMem (storedOut ea target s j 0 s.mem)) (fun _ => rfl) (fun _ => rfl)
    (fun _ hj => storedOut_storedBytes (hj.trans hn)) (storeBytes_cases params ea target n 0 s)

/-- A constructor whose effect is a transfer of `n` bytes obeys the rule of transfers. The opcode, the mnemonic and the
request bits of a constructor hold by definition. -/
theorem transferRule_of_effect {m : Mnemonic} {opcode : Nat} {F : Type} {instr : Req → F → Instr} {target : F → Nat}
    {ea : State → F → Byte} {n : Nat} {done : Nat → Nat → Byte → State → State → Prop}
    (hends : ∀ q o s, TransferEnds n (target o) (ea s o) done s (effect (instr q o) s))
    (hopcode : (opcodeMap m).toNat = opcode := by rfl) (hm : ∀ q o, (instr q o).mnemonic = m := by intros; rfl)
    (hreq : ∀ q o, (instr q o).req = q := by intros; rfl) : TransferRule m opcode instr target ea n done := by
  refine ⟨hopcode, fun q o s => ⟨hm q o, fun hg => ?_⟩⟩
  have hexec : exec (instr q o) s = .next (effect (instr q o) s) := exec_open (gate_eq_true.2 (by rwa [hreq]))
  refine ⟨fun hok => ?_, fun k hk hbefore hfail => ⟨_, hexec, (hends q o s).halt hk hbefore hfail⟩⟩
  obtain ⟨hdone, hpc, hrun⟩ := (hends q o s).complete hok
  exact ⟨_, hexec, hdone, by rw [hpc, BitVec.toNat_add]; rfl, hrun⟩

end Sys2Proof.Machine

namespace Sys2Proof
open Machine

/-- Settles O32: both are sums of bytes, the offset first taken modulo 256. -/
theorem effectiveAddressWraps : Obligations.EffectiveAddressWraps := by
  refine ⟨fun s o => ?_, fun s o => BitVec.toNat_add _ _⟩
  rw [State.eaBo, BitVec.toNat_add, BitVec.toNat_ofNat, Nat.add_mod_mod]

/-- Settles O33: each runs the load loop from the address computed at the start (`loadBytes_ends`). -/
theorem loadsBaseOffset : Obligations.LoadsBaseOffset :=
  ⟨transferRule_of_effect fun _ o s => loadBytes_ends 1 o.target (s.eaBo o) s,
   transferRule_of_effect fun _ o s => loadBytes_ends 2 o.target (s.eaBo o) s,
   transferRule_of_effect fun _ o s => loadBytes_ends 4 o.target (s.eaBo o) s⟩

/-- Settles O34: each runs the store loop (`storeBytes_ends`), where registers 0 and 30 read 0. -/
theorem storesBaseOffset : Obligations.StoresBaseOffset :=
  ⟨transferRule_of_effect fun _ o s => storeBytes_ends (n := 1) (by decide) o.target (s.eaBo o) s,
   transferRule_of_effect fun _ o s => storeBytes_ends (n := 2) (by decide) o.target (s.eaBo o) s,
   transferRule_of_effect fun _ o s => storeBytes_ends (n := 4) (by decide) o.target (s.eaBo o) s⟩

/-- Settles O35: the load loop at the base + index address, computed before any target is written (R172). -/
theorem loadsBaseIndex : Obligations.LoadsBaseIndex :=
  ⟨transferRule_of_effect fun _ o s => loadBytes_ends 1 o.target (s.eaBi o) s,
   transferRule_of_effect fun _ o s => loadBytes_ends 2 o.target (s.eaBi o) s,
   transferRule_of_effect fun _ o s => loadBytes_ends 4 o.target (s.eaBi o) s⟩

/-- Settles O36: the store loop at the base + index address. -/
theorem storesBaseIndex : Obligations.StoresBaseIndex :=
  ⟨transferRule_of_effect fun _ o s => storeBytes_ends (n := 1) (by decide) o.target (s.eaBi o) s,
   transferRule_of_effect fun _ o s => storeBytes_ends (n := 2) (by decide) o.target (s.eaBi o) s,
   transferRule_of_effect fun _ o s => storeBytes_ends (n := 4) (by decide) o.target (s.eaBi o) s⟩

end Sys2Proof
end

/-! ## Control flow (R199 to R203) -/

section
namespace Sys2Proof.Machine
open Claims

theorem jumpAbsolute_of_valid {c : Config} {t : Int} (h : 0 ≤ t ∧ t + 4 ≤ c.memSize) (s : State) :
    jumpAbsolute c t s = s.setPc (BitVec.ofNat 8 t.toNat) := by
  obtain ⟨-, -, hjump⟩ | ⟨hinvalid, -⟩ := jumpAbsolute_cases c t s
  · rw [hjump, ← BitVec.ofInt_natCast, Int.toNat_of_nonneg h.1]
  · exact absurd h hinvalid

theorem jumpAbsolute_of_invalid {c : Config} {t : Int} (h : ¬(0 ≤ t ∧ t + 4 ≤ c.memSize)) (s : State) :
    jumpAbsolute c t s = s.raiseHalt .jumpOutOfRange := by
  obtain ⟨hnonneg, hfits, -⟩ | ⟨-, hjump⟩ := jumpAbsolute_cases c t s
  · exact absurd ⟨hnonneg, hfits⟩ h
  · exact hjump

/-- The bound 255 is the default memory size (R199). -/
theorem exec_jumpAbsolute_open {i : Instr} {s : State} {t : Int} (hi : effect i s = jumpAbsolute params t s)
    (hg : GateOpen i.req s.flags) :
    ((0 ≤ t ∧ t + 4 ≤ 255) → exec i s = .next { s with pc := BitVec.ofNat 8 t.toNat }) ∧
    (¬(0 ≤ t ∧ t + 4 ≤ 255) → exec i s = .next { s with run := .halted .jumpOutOfRange }) := by
  rw [exec_open (gate_eq_true.2 hg), hi]
  exact ⟨fun h => congrArg _ (jumpAbsolute_of_valid h s), fun h => congrArg _ (jumpAbsolute_of_invalid h s)⟩

end Sys2Proof.Machine

namespace Sys2Proof
open Machine

/-- Settles O42: a relative jump takes its byte sum from the jump's own address (`exec_jmp_open`). -/
theorem jumpRelative : Obligations.JumpRelative := ⟨rfl, fun _ o _ hg => exec_jmp_open hg o⟩

/-- Settles O43: an absolute jump to a register's byte, which is never negative, so that only the upper bound counts. -/
theorem jumpToRegister : Obligations.JumpToRegister := by
  refine ⟨rfl, fun q o s hg => ?_⟩
  obtain ⟨hvalid, hinvalid⟩ := exec_jumpAbsolute_open (i := .jmpr q o) rfl hg
  rw [Int.toNat_natCast, BitVec.ofNat_toNat, BitVec.setWidth_eq] at hvalid
  exact ⟨fun h => hvalid (by omega), fun h => hinvalid (by omega)⟩

/-- Settles O44: an absolute jump to the immediate's value. -/
theorem jumpToImmediate : Obligations.JumpToImmediate :=
  ⟨rfl, fun q o _ hg => exec_jumpAbsolute_open (i := .jmpi q o) rfl hg⟩

/-- Settles O45: the effect of INT raises the halt and reads no operand. -/
theorem interruptHalts : Obligations.InterruptHalts :=
  ⟨rfl, fun q o _ hg => exec_open (i := .int q o) (gate_eq_true.2 hg)⟩

end Sys2Proof
end

/-! ## The outcomes of a step (R220 to R223) -/

section
namespace Sys2Proof.Machine
open Claims

/-- Everything the step of a live state `s` can end in (R220): it continues, or it ends Fatal, or it halts. A halt comes
from outside a transfer, or from the transfer at the pc. -/
inductive StepEnds (s : State) : State → Prop
  | continues {t : State} (hrun : t.run = .runnable) (hfatal : t.fatal = none) : StepEnds s t
  | fatal (r : FatalReason) : StepEnds s (s.raiseFatal r)
  | halts {c : HaltCause} (hreg : c ≠ .copyRegInvalid) (hmem : c ≠ .memOutOfRange) : StepEnds s (s.raiseHalt c)
  | transferHalts {t : State} {c : HaltCause} (h : HaltedTransfer s t c) (hpc : t.pc = s.pc)
      (hrun : t.run = .halted c) : StepEnds s t

theorem byteCause_eq_or (target k : Nat) :
    ByteCause target k = .copyRegInvalid ∨ ByteCause target k = .memOutOfRange :=
  ite_eq_or_eq ..

theorem haltedTransfer_cause {s t : State} {c : HaltCause} (h : HaltedTransfer s t c) :
    c = .copyRegInvalid ∨ c = .memOutOfRange := by
  obtain ⟨-, -, target, -, n, -, -, -, -, -, -, -, rfl, -⟩ := h
  exact byteCause_eq_or target n

/-- Whether it committed bytes to registers or to memory, a transfer writes no flag and sets no mark. -/
theorem haltedTransfer_frame {s t : State} {c : HaltCause} (h : HaltedTransfer s t c) :
    t.flags = s.flags ∧ t.fatal = s.fatal := by
  obtain ⟨_, _, _, _, _, -, -, -, -, -, -, -, -, ⟨-, hload⟩ | ⟨-, hstore⟩⟩ := h
  · exact ⟨hload.flags, hload.fatal⟩
  · exact ⟨hstore.flags, hstore.fatal⟩

theorem stepEnds_advance {s : State} (hlive : Live s) : StepEnds s s.advance := .continues hlive.1 hlive.2

theorem stepEnds_gated {q : Req} {s t : State} (hlive : Live s) (h : GateOpen q s.flags → StepEnds s t) :
    StepEnds s (gated q s t) := by
  obtain ⟨hopen, e⟩ | ⟨-, e⟩ := gated_cases q s t <;> rw [e]
  · exact h (gate_eq_true.1 hopen)
  · exact stepEnds_advance hlive

theorem stepEnds_aluRd {s : State} (hlive : Live s) (op : AluOp) (o : Rd) : StepEnds s (aluRd params op o s) :=
  .continues ((aluWriteBack_run ..).trans hlive.1) ((aluWriteBack_fatal ..).trans hlive.2)

theorem stepEnds_aluRi {s : State} (hlive : Live s) (op : AluOp) (o : Ri) : StepEnds s (aluRi params op o s) := by
  obtain ⟨-, e⟩ | ⟨-, e⟩ := aluRi_cases params op o s <;> rw [e]
  · exact .continues ((aluWriteBack_run ..).trans hlive.1) ((aluWriteBack_fatal ..).trans hlive.2)
  · exact .fatal .riImmediate

theorem stepEnds_jumpAbsolute {s : State} (hlive : Live s) (target : Int) :
    StepEnds s (jumpAbsolute params target s) := by
  obtain ⟨-, -, e⟩ | ⟨-, e⟩ := jumpAbsolute_cases params target s <;> rw [e]
  · exact .continues hlive.1 hlive.2
  · exact .halts (by decide) (by decide)

/-- So the bytes of one transfer are at distinct addresses. -/
theorem transferWidth_le_256 (m : Mnemonic) : transferWidth m ≤ 256 := by cases m <;> decide

section AtPc
variable {s : State} {w : Word} {i : Instr}

/-- The transfer at the pc continues when every byte passed its checks, and else halts at the byte where it ended, the
first that fails. -/
theorem stepEnds_of_transferEnds {target : Nat} {ea : Byte} {done : Nat → Nat → Byte → State → State → Prop}
    {t : State} (hlive : Live s) (hw : FetchesWord s w) (hd : decode w = .ok i) (hg : GateOpen i.req s.flags)
    (hoperand : (∃ o, i.operand = .bo o ∧ target = o.target ∧ ea = s.eaBo o) ∨
      (∃ o, i.operand = .bi o ∧ target = o.target ∧ ea = s.eaBi o))
    (hdone : ∀ n, done n target ea s t → (i.mnemonic.isLoad = true ∧ LoadedBytes n target ea s t) ∨
      (i.mnemonic.isStore = true ∧ StoredBytes n target ea s t))
    (h : TransferEnds (transferWidth i.mnemonic) target ea done s t) : StepEnds s t := by
  obtain ⟨n, -, hok, hn, ⟨-, -, hrun⟩ | ⟨hlt, hfail, hpc, hrun⟩⟩ := h
  · refine .continues (hrun.trans hlive.1) (Eq.trans ?_ hlive.2)
    obtain ⟨-, hload⟩ | ⟨-, hstore⟩ := hdone n hn
    · exact hload.fatal
    · exact hstore.fatal
  · exact .transferHalts ⟨w, i, target, ea, n, hw, hd, hg, hoperand, hlt, hok, hfail, rfl, hdone n hn⟩ hpc hrun

theorem stepEnds_effect (hlive : Live s) (hw : FetchesWord s w) (hd : decode w = .ok i) (hg : GateOpen i.req s.flags) :
    StepEnds s (effect i s) := by
  cases i with
  | shl q o | shr q o | and q o | or q o | xor q o | not q o | add q o | sub q o | mul q o =>
    exact stepEnds_aluRd hlive _ o
  | shli q o | shri q o | andi q o | ori q o | xori q o | noti q o | addi q o | subi q o | muli q o =>
    exact stepEnds_aluRi hlive _ o
  | ld8 q o | ld16 q o | ld32 q o =>
    exact stepEnds_of_transferEnds hlive hw hd hg (.inl ⟨o, rfl, rfl, rfl⟩) (fun _ h => .inl ⟨rfl, h⟩)
      (loadBytes_ends ..)
  | ld8x q o | ld16x q o | ld32x q o =>
    exact stepEnds_of_transferEnds hlive hw hd hg (.inr ⟨o, rfl, rfl, rfl⟩) (fun _ h => .inl ⟨rfl, h⟩)
      (loadBytes_ends ..)
  | st8 q o | st16 q o | st32 q o =>
    exact stepEnds_of_transferEnds hlive hw hd hg (.inl ⟨o, rfl, rfl, rfl⟩) (fun _ h => .inr ⟨rfl, h⟩)
      (storeBytes_ends (transferWidth_le_256 _) ..)
  | st8x q o | st16x q o | st32x q o =>
    exact stepEnds_of_transferEnds hlive hw hd hg (.inr ⟨o, rfl, rfl, rfl⟩) (fun _ h => .inr ⟨rfl, h⟩)
      (storeBytes_ends (transferWidth_le_256 _) ..)
  | jmp q o => exact .continues hlive.1 hlive.2
  | jmpr q o => exact stepEnds_jumpAbsolute hlive _
  | jmpi q o => exact stepEnds_jumpAbsolute hlive _
  | int q o => exact .halts (by decide) (by decide)

end AtPc

theorem stepEnds_of_step {s t : State} (h : step s = .next t) : StepEnds s t := by
  have hlive := live_of_step h
  obtain ⟨-, ⟨-, rfl⟩ | ⟨w, i, hw, hd, hi⟩ | ⟨w, e, -, -, rfl⟩⟩ := step_cases h
  · exact .fatal .fetchOutOfRange
  · rw [exec_eq] at hi
    cases hi
    exact stepEnds_gated hlive fun hg => stepEnds_effect hlive (fetch_eq_some_iff.1 hw) hd hg
  · exact stepEnds_gated hlive fun _ => .halts (by decide) (by decide)

/-- No instruction faults or refuses, so a live state always has a step (R103, R109). -/
theorem exists_step_of_live {s : State} (hlive : Live s) : ∃ t, step s = .next t := by
  cases hfetch : s.fetch with
  | none => exact ⟨_, step_of_fetch_eq_none hlive hfetch⟩
  | some w =>
    obtain ⟨t, ht⟩ := runWord_eq_gated w s
    exact ⟨_, (step_of_fetchesWord hlive (fetch_eq_some_iff.1 hfetch)).trans ht⟩

end Sys2Proof.Machine

namespace Sys2Proof
open Machine Claims

/-- Settles O14: a live state has a step (`exists_step_of_live`), and each way it can end (`StepEnds`) is one of the
three outcomes. -/
theorem everyStepHasOneOutcome : Obligations.EveryStepHasOneOutcome := by
  intro s hlive
  obtain ⟨t, hstep⟩ := exists_step_of_live hlive
  refine ⟨t, hstep, ?_⟩
  cases stepEnds_of_step hstep with
  | continues hrun hfatal => exact .inl ⟨hrun, hfatal⟩
  | fatal r => exact .inr (.inr ⟨r, hlive.1, rfl⟩)
  | halts => exact .inr (.inl ⟨_, rfl, hlive.2⟩)
  | transferHalts h _ hrun => exact .inr (.inl ⟨_, hrun, (haltedTransfer_frame h).2.trans hlive.2⟩)

/-- Settles O16: of the ways a step can end (`StepEnds`) two are halts. One changes the run state alone, the other is a
transfer's, and the cause tells which. -/
theorem haltMovesNothing : Obligations.HaltMovesNothing := by
  intro s t c hstep hhalted
  obtain ⟨hrunnable, hunmarked⟩ := live_of_step hstep
  cases stepEnds_of_step hstep with
  | continues hrun => cases hhalted.symm.trans hrun
  | fatal => cases hhalted.symm.trans hrunnable
  | halts hreg hmem =>
    cases hhalted
    exact ⟨rfl, rfl, hunmarked, fun _ _ => rfl, fun hc => (hc.elim hreg hmem).elim⟩
  | transferHalts h hpc hrun =>
    cases hhalted.symm.trans hrun
    obtain ⟨hflags, hfatal⟩ := haltedTransfer_frame h
    exact ⟨hpc, hflags, hfatal.trans hunmarked,
      fun hreg hmem => ((haltedTransfer_cause h).elim hreg hmem).elim, fun _ => h⟩

end Sys2Proof
end

/-! ## The state of a launch (R250 to R252) -/

section
namespace Sys2Proof.Machine
open Claims

/-! ### What a memory lists and what it reads -/

theorem Memory.get_of_not_listed {m : Memory} {a : Nat} (h : ∀ p ∈ m, p.1 ≠ a) : m.get a = Memory.unlisted := by
  induction m with
  | nil => rfl
  | cons p m ih =>
    obtain ⟨hp, hm⟩ := List.forall_mem_cons.1 h
    rw [Memory.get, if_neg hp.symm, ih hm]

/-- In the canonical form a listed address has one pair. -/
theorem Memory.get_of_mem {m : Memory} (h : m.wf) {p : Host.Cell} (hp : p ∈ m) : m.get p.1 = p.2 := by
  obtain ⟨hrising, -⟩ := h
  induction m with
  | nil => cases hp
  | cons q m ih =>
    obtain ⟨hq, hm⟩ := List.pairwise_cons.1 hrising
    obtain rfl | hp := List.mem_cons.1 hp
    · exact if_pos rfl
    · rw [Memory.get, if_neg (hq p hp).ne', ih hp hm]

theorem Memory.mem_ofBytes {n : Nat} {f : Nat → Byte} {p : Host.Cell} :
    p ∈ Memory.ofBytes n f ↔ p.1 < n ∧ f p.1 ≠ Memory.unlisted ∧ p.2 = f p.1 := by
  obtain ⟨k, v⟩ := p
  simp only [Memory.ofBytes, List.mem_filterMap, List.mem_range, Option.ite_none_left_eq_some, Option.some.injEq,
    Prod.mk.injEq]
  constructor
  · rintro ⟨b, hb, hne, rfl, rfl⟩
    exact ⟨hb, hne, rfl⟩
  · rintro ⟨hb, hne, rfl⟩
    exact ⟨k, hb, hne, rfl, rfl⟩

theorem Memory.wf_ofBytes (n : Nat) (f : Nat → Byte) : (Memory.ofBytes n f).wf := by
  refine ⟨List.pairwise_lt_range.filterMap _ fun a b hab p hp q hq => ?_, fun p hp => ?_⟩
  · obtain ⟨-, ⟨⟩⟩ := Option.ite_none_left_eq_some.1 hp
    obtain ⟨-, ⟨⟩⟩ := Option.ite_none_left_eq_some.1 hq
    exact hab
  · obtain ⟨-, hne, hv⟩ := Memory.mem_ofBytes.1 hp
    rwa [hv]

theorem Memory.below_ofBytes (n : Nat) (f : Nat → Byte) : (Memory.ofBytes n f).below n :=
  fun _ hp => (Memory.mem_ofBytes.1 hp).1

/-- Every address that exists reads its given byte, listed or not. -/
theorem Memory.get_ofBytes {n a : Nat} {f : Nat → Byte} (h : a < n) : (Memory.ofBytes n f).get a = f a := by
  by_cases hf : f a = Memory.unlisted
  · rw [hf]
    refine Memory.get_of_not_listed fun p hp hpa => ?_
    obtain ⟨-, hne, -⟩ := Memory.mem_ofBytes.1 hp
    exact hne (hpa ▸ hf)
  · exact Memory.get_of_mem (Memory.wf_ofBytes n f) (p := (a, f a)) (Memory.mem_ofBytes.2 ⟨h, hf, rfl⟩)

/-- A canonical memory is the one built from its bytes: the two read alike, beyond the last address too. -/
theorem Memory.ofBytes_get {n : Nat} {m : Memory} (hw : m.wf) (hb : m.below n) : Memory.ofBytes n m.get = m := by
  refine Memory.ext (Memory.wf_ofBytes n m.get) hw fun a => ?_
  obtain ha | ha := lt_or_ge a n
  · exact Memory.get_ofBytes ha
  · have hbeyond {m' : Memory} (hb' : m'.below n) : m'.get a = Memory.unlisted :=
      Memory.get_of_not_listed fun p hp => ((hb' p hp).trans_le ha).ne
    rw [hbeyond (Memory.below_ofBytes n m.get), hbeyond hb]

/-! ### The RANDOM launch (R252) -/

theorem randomReset_inv (d : Draw) : (State.randomReset params d).Inv :=
  ⟨Memory.wf_ofBytes _ d.memory, Memory.below_ofBytes _ d.memory, fun _ => rfl⟩

theorem randomReset_readByte (d : Draw) {a : Nat} (h : a < 255) :
    (State.randomReset params d).mem.readByte params a = some (d.memory a) :=
  Memory.readByte_eq_some.2 ⟨h, (Memory.get_ofBytes h).symm⟩

/-- The draw that a state is the launch of. -/
def State.toDraw (s : State) : Draw := { regs := s.regs, pc := s.pc, flags := s.flags, memory := s.mem.get }

theorem randomReset_toDraw {s : State} (hs : s.Inv) (hlive : Live s) : State.randomReset params s.toDraw = s := by
  obtain ⟨hw, hb, -⟩ := hs
  obtain ⟨hrun, hfatal⟩ := hlive
  rw [State.randomReset, State.toDraw, Memory.ofBytes_get hw hb, ← hrun, ← hfatal]

/-! ### The BLANK launch (R251) -/

theorem reset_readReg (r : Nat) : State.reset.readReg r = 0 := by
  by_cases hr : IsReal r
  · rw [State.readReg, dif_pos hr]
    exact Vector.getElem_replicate _
  · exact State.reset.readReg_blackHole hr

theorem reset_readByte {a : Nat} (h : a < 255) : State.reset.mem.readByte params a = some 0 :=
  Memory.readByte_eq_some.2 ⟨h, rfl⟩

theorem reset_fetchesWord_zero : FetchesWord State.reset 0 := by
  intro k hk
  have haddr : (State.reset.pc.toNat + k) % 256 < 255 := (byteAddr_lt_memSize 0).2 (by decide) k hk
  have hzero : BitVec.ofNat 8 ((0 : Word).toNat / 256 ^ k) = 0 := congrArg _ (Nat.zero_div _)
  rw [reset_readByte haddr, hzero]

end Sys2Proof.Machine

namespace Sys2Proof
open Machine

/-- Settles O49: the memory of a draw is canonical and reads the drawn bytes (`Memory.get_ofBytes`), and a live state
with the invariant is the launch of its own registers, pc, flags and bytes (`randomReset_toDraw`). -/
theorem randomResetIsEveryDraw : Obligations.RandomResetIsEveryDraw :=
  ⟨fun d => ⟨rfl, rfl, rfl, rfl, randomReset_inv d, fun _ => randomReset_readByte d⟩,
   fun s hs hlive => ⟨s.toDraw, randomReset_toDraw hs hlive⟩⟩

/-- Settles O48: the word at pc 0 of blank memory is 0, which asks for no flag and has the unassigned opcode 0, so the
first step halts by O11. -/
theorem blankResetValues : Obligations.BlankResetValues := by
  refine ⟨fun _ => rfl, reset_readReg, rfl, rfl, fun _ => reset_readByte, rfl, ?_⟩
  exact unassignedOpcodeHalts.2 State.reset 0 ⟨rfl, rfl⟩ reset_fetchesWord_zero (by decide) (.inl rfl)

end Sys2Proof
end

/-! ## Encode and decode of instructions are inverses (R70 to R87) -/

section
namespace Sys2Proof
open Laws

theorem Operand.toField_lt {p : Operand} (h : p.wf = true) : p.toField < 2 ^ 22 := by
  cases p with
  | rd => exact (Rd.fits h).1
  | ri => exact (Ri.fits h).1
  | bo => exact (Bo.fits h).1
  | bi => exact (Bi.fits h).1
  | j => exact (J.fits h).1
  | jr => exact (JR.fits h).1

theorem rebuilds : (i : Instr) → Rebuilds.Statement i
  | .shl q o => Rebuilds.shl q o | .shr q o => Rebuilds.shr q o | .and q o => Rebuilds.and q o
  | .or q o => Rebuilds.or q o | .xor q o => Rebuilds.xor q o | .not q o => Rebuilds.not q o
  | .add q o => Rebuilds.add q o | .sub q o => Rebuilds.sub q o | .mul q o => Rebuilds.mul q o
  | .shli q o => Rebuilds.shli q o | .shri q o => Rebuilds.shri q o | .andi q o => Rebuilds.andi q o
  | .ori q o => Rebuilds.ori q o | .xori q o => Rebuilds.xori q o | .noti q o => Rebuilds.noti q o
  | .addi q o => Rebuilds.addi q o | .subi q o => Rebuilds.subi q o | .muli q o => Rebuilds.muli q o
  | .ld8 q o => Rebuilds.ld8 q o | .ld16 q o => Rebuilds.ld16 q o | .ld32 q o => Rebuilds.ld32 q o
  | .st8 q o => Rebuilds.st8 q o | .st16 q o => Rebuilds.st16 q o | .st32 q o => Rebuilds.st32 q o
  | .ld8x q o => Rebuilds.ld8x q o | .ld16x q o => Rebuilds.ld16x q o | .ld32x q o => Rebuilds.ld32x q o
  | .st8x q o => Rebuilds.st8x q o | .st16x q o => Rebuilds.st16x q o | .st32x q o => Rebuilds.st32x q o
  | .jmp q o => Rebuilds.jmp q o | .jmpr q o => Rebuilds.jmpr q o | .jmpi q o => Rebuilds.jmpi q o
  | .int q o => Rebuilds.int q o

/-- Read in any instruction's format, an operand field of 22 bits is well-formed and loses no bit (R75 to R80, R85). -/
theorem instrOfField_covers (m : Mnemonic) (q : Req) {p : Nat} (h : p < 2 ^ 22) :
    (instrOfField m q p).wf = true ∧ (instrOfField m q p).operand.toField = p := by
  cases m with
  | shl | shr | and | or | xor | not | add | sub | mul => exact Rd.covers h
  | shli | shri | andi | ori | xori | noti | addi | subi | muli => exact Ri.covers h
  | ld8 | ld16 | ld32 | st8 | st16 | st32 => exact Bo.covers h
  | ld8x | ld16x | ld32x | st8x | st16x | st32x => exact Bi.covers h
  | jmp | jmpi | int => exact J.covers h
  | jmpr => exact JR.covers h

theorem encodeWith_of_wf {om : OpcodeMap} {i : Instr} (h : i.wf = true) : encodeWith om i = (i.toRaw om).toWord :=
  if_pos h

theorem exists_toWord_of_wf (om : OpcodeMap) {i : Instr} (h : i.wf = true) : ∃ w, (i.toRaw om).toWord = some w :=
  Raw.exists_toWord (Nat.le_of_lt_succ (om i.mnemonic).isLt) (Nat.le_of_lt_succ (Operand.toField_lt h))

/-- A word decodes by its fields alone: the instruction that holds its opcode, read from its operand (R72, R106). -/
theorem decodeWith_of_fields {om : OpcodeMap} {w : Word} {m : Mnemonic}
    (h : instructionOf om (Raw.ofWord w).opcode = some m) :
    decodeWith om w = .ok (instrOfField m (Raw.ofWord w).req (Raw.ofWord w).operand) := by
  simp only [decodeWith, h]

/-- Settles O2: the word of an instruction has its fields (`Raw.ofWord_of_toWord`), a map with distinct numbers finds
its name (`instructionOf_map`), and its format reads the operand back (`rebuilds`). -/
theorem decodeInvertsEncode : Obligations.DecodeInvertsEncode := by
  refine ⟨opcodeMap_injective, fun om hom i hwf => ?_⟩
  obtain ⟨w, hw⟩ := exists_toWord_of_wf om hwf
  have hfields : Raw.ofWord w = i.toRaw om := Raw.ofWord_of_toWord hw
  have hname : instructionOf om (Raw.ofWord w).opcode = some i.mnemonic := hfields ▸ instructionOf_map hom i.mnemonic
  refine ⟨w, (encodeWith_of_wf hwf).trans hw, ?_⟩
  rw [decodeWith_of_fields hname, hfields]
  exact congrArg _ (rebuilds i hwf)

/-- Settles O3: what a word decodes to has the word's own fields, whose word it is (`Raw.toWord_ofWord`). -/
theorem encodeInvertsDecode : Obligations.EncodeInvertsDecode := by
  intro om w i h
  obtain ⟨hi, hreq, hopcode⟩ := decodeWith_ok h
  obtain ⟨hwf, hoperand⟩ := instrOfField_covers i.mnemonic (Raw.ofWord w).req (Raw.ofWord_operand_lt w)
  rw [← hi] at hwf hoperand
  have hfields : i.toRaw om = Raw.ofWord w := by rw [Instr.toRaw, hreq, hopcode, hoperand]
  exact ⟨hwf, by rw [encodeWith_of_wf hwf, hfields, Raw.toWord_ofWord]⟩

/-- Settles O1: the decoder run on each word, one per format, and on the word 0. -/
theorem tableWordsDecode : Obligations.TableWordsDecode := ⟨rfl, rfl, rfl, rfl, rfl, rfl, rfl⟩

end Sys2Proof
end

/-! ## What an instruction changes, and the invariant (R25, R30, R50, R174) -/

section
namespace Sys2Proof.Machine
open Claims

/-- What `exec` answers: the effect behind an open gate, and the skip behind a shut one (R102, R103). -/
theorem exec_next_cases {i : Instr} {s t : State} (h : exec i s = .next t) :
    (GateOpen i.req s.flags ∧ t = effect i s) ∨ (¬GateOpen i.req s.flags ∧ t = s.advance) := by
  rw [exec_eq] at h
  cases h
  obtain ⟨hg, e⟩ | ⟨hg, e⟩ := gated_cases i.req s (effect i s) <;> rw [e]
  · exact .inl ⟨gate_eq_true.1 hg, rfl⟩
  · exact .inr ⟨gate_eq_false.1 hg, rfl⟩

theorem gated_raiseHalt_mem (q : Req) (s : State) (c : HaltCause) : (gated q s (s.raiseHalt c)).mem = s.mem := by
  obtain ⟨-, h⟩ | ⟨-, h⟩ := gated_cases q s (s.raiseHalt c) <;> simp [h]

theorem gated_raiseHalt_fatal (q : Req) (s : State) (c : HaltCause) : (gated q s (s.raiseHalt c)).fatal = s.fatal := by
  obtain ⟨-, h⟩ | ⟨-, h⟩ := gated_cases q s (s.raiseHalt c) <;> simp [h]

/-! ### Memory -/

theorem aluRi_mem (c : Config) (op : AluOp) (o : Ri) (s : State) : (aluRi c op o s).mem = s.mem := by
  obtain ⟨-, h⟩ | ⟨-, h⟩ := aluRi_cases c op o s <;> simp [h]

theorem loadBytes_mem (c : Config) (ea : Byte) (target n k : Nat) (s : State) :
    (loadBytes c ea target n k s).mem = s.mem := by
  obtain ⟨j, -, -, ⟨-, h⟩ | ⟨-, -, h⟩ | ⟨-, -, -, h⟩⟩ := loadBytes_cases c ea target n k s <;> simp [h]

theorem jumpAbsolute_mem (c : Config) (v : Int) (s : State) : (jumpAbsolute c v s).mem = s.mem := by
  obtain ⟨-, -, h⟩ | ⟨-, h⟩ := jumpAbsolute_cases c v s <;> simp [h]

/-- Memory `m` is the memory of `s` with some of the four bytes from `ea` on stored, each of them at an address that
exists (R174, R175). -/
def StoredFrom (ea : Byte) (s : State) (m : Memory) : Prop :=
  ∃ target, ∃ j ≤ 4, (∀ k < j, byteAddr ea.toNat k < params.memSize) ∧ m = storedOut ea target s j 0 s.mem

theorem storeBytes_storedFrom {n : Nat} (hn : n ≤ 4) (ea : Byte) (target : Nat) (s : State) :
    StoredFrom ea s (storeBytes params ea target n 0 s).mem := by
  obtain ⟨j, hj, hok, hend⟩ := storeBytes_cases params ea target n 0 s
  refine ⟨target, j, hj.trans hn, fun k hk => ?_, ?_⟩
  · simpa using (hok k hk).2
  · obtain ⟨-, h⟩ | ⟨-, -, h⟩ | ⟨-, -, -, h⟩ := hend <;> simp [h]

theorem StoredFrom.keeps {ea : Byte} {s : State} {m : Memory} (h : StoredFrom ea s m) (hw : s.mem.wf)
    (hb : s.mem.below params.memSize) : m.wf ∧ m.below params.memSize := by
  obtain ⟨target, j, -, haddr, rfl⟩ := h
  exact ⟨storedOut_wf ea target s j 0 s.mem hw, storedOut_below ea target s _ j 0 s.mem hb (by simpa using haddr)⟩

/-- A byte a store changed is one of the four from its address on. -/
theorem StoredFrom.addr_of_changed {ea : Byte} {s : State} {m : Memory} (h : StoredFrom ea s m) {a : Nat}
    (hne : m.readByte params a ≠ s.mem.readByte params a) : ∃ k < 4, a = byteAddr ea.toNat k := by
  obtain ⟨target, j, hj, -, rfl⟩ := h
  by_contra! hout
  refine hne (Memory.readByte_congr (storedOut_get_other ea target s j 0 s.mem a fun i hi => ?_))
  rw [Nat.zero_add]
  exact hout i (by omega)

/-- No instruction but a store writes memory, and a store from its effective address on (R174). -/
theorem effect_mem_cases (i : Instr) (s : State) : (effect i s).mem = s.mem ∨ (i.mnemonic.isStore = true ∧
    ((∃ o, i.operand = .bo o ∧ StoredFrom (s.eaBo o) s (effect i s).mem) ∨
     (∃ o, i.operand = .bi o ∧ StoredFrom (s.eaBi o) s (effect i s).mem))) := by
  cases i with
  | shl | shr | and | or | xor | not | add | sub | mul => exact .inl (aluWriteBack_mem ..)
  | shli | shri | andi | ori | xori | noti | addi | subi | muli => exact .inl (aluRi_mem ..)
  | ld8 | ld16 | ld32 | ld8x | ld16x | ld32x => exact .inl (loadBytes_mem ..)
  | st8 q o | st16 q o | st32 q o => exact .inr ⟨rfl, .inl ⟨o, rfl, storeBytes_storedFrom (by decide) ..⟩⟩
  | st8x q o | st16x q o | st32x q o => exact .inr ⟨rfl, .inr ⟨o, rfl, storeBytes_storedFrom (by decide) ..⟩⟩
  | jmp | int => exact .inl rfl
  | jmpr | jmpi => exact .inl (jumpAbsolute_mem ..)

theorem exec_mem_keeps {i : Instr} {s t : State} (h : exec i s = .next t) (hw : s.mem.wf)
    (hb : s.mem.below params.memSize) : t.mem.wf ∧ t.mem.below params.memSize := by
  obtain ⟨-, rfl⟩ | ⟨-, rfl⟩ := exec_next_cases h
  · obtain hmem | ⟨-, ⟨o, -, hstored⟩ | ⟨o, -, hstored⟩⟩ := effect_mem_cases i s
    · rw [hmem]; exact ⟨hw, hb⟩
    · exact hstored.keeps hw hb
    · exact hstored.keeps hw hb
  · exact ⟨hw, hb⟩

/-- A step writes memory through its instruction alone: a failed fetch and an unassigned opcode write none. -/
theorem step_mem_keeps {s t : State} (h : step s = .next t) (hw : s.mem.wf) (hb : s.mem.below params.memSize) :
    t.mem.wf ∧ t.mem.below params.memSize := by
  obtain ⟨-, ⟨-, rfl⟩ | ⟨w, i, -, -, hi⟩ | ⟨w, e, -, -, rfl⟩⟩ := step_cases h
  · exact ⟨hw, hb⟩
  · exact exec_mem_keeps hi hw hb
  · rw [gated_raiseHalt_mem]
    exact ⟨hw, hb⟩

/-- A halt and a Fatal mark never come from one step (R35, R220). -/
theorem step_run_of_fatal {s t : State} (h : step s = .next t) (hf : t.fatal.isSome = true) : t.run = .runnable := by
  obtain ⟨hrunnable, hunmarked⟩ := live_of_step h
  cases stepEnds_of_step h with
  | continues hrun => exact hrun
  | fatal => exact hrunnable
  | halts =>
    rw [State.raiseHalt_fatal, hunmarked] at hf
    cases hf
  | transferHalts htransfer =>
    rw [(haltedTransfer_frame htransfer).2, hunmarked] at hf
    cases hf

/-! ### Registers -/

theorem aluWriteBack_register_changed {c : Config} {op : AluOp} {dest a b : Nat} {s : State} {r : Nat}
    (hne : (aluWriteBack c op dest a b s).readReg r ≠ s.readReg r) : r = dest := by
  by_contra hr
  exact hne (by simp [hr])

theorem aluRi_register_changed {c : Config} {op : AluOp} {o : Ri} {s : State} {r : Nat}
    (hne : (aluRi c op o s).readReg r ≠ s.readReg r) : r = o.dest := by
  obtain ⟨-, e⟩ | ⟨-, e⟩ := aluRi_cases c op o s <;> rw [e] at hne
  · exact aluWriteBack_register_changed hne
  · exact absurd rfl hne

theorem loadBytes_register_changed {c : Config} {ea : Byte} {n target r : Nat} {s : State} (hn : n ≤ 4)
    (hne : (loadBytes c ea target n 0 s).readReg r ≠ s.readReg r) : target ≤ r ∧ r < target + 4 := by
  obtain ⟨j, hj, -, hend⟩ := loadBytes_cases c ea target n 0 s
  by_contra hout
  have hcopied : (copiedIn ea target j 0 s).readReg r = s.readReg r := by
    rw [copiedIn_readReg, if_neg (by omega)]
  refine hne ?_
  obtain ⟨-, e⟩ | ⟨-, -, e⟩ | ⟨-, -, -, e⟩ := hend <;> simp [e, hcopied]

theorem storeBytes_readReg (c : Config) (ea : Byte) (target n k : Nat) (s : State) (r : Nat) :
    (storeBytes c ea target n k s).readReg r = s.readReg r := by
  obtain ⟨j, -, -, ⟨-, h⟩ | ⟨-, -, h⟩ | ⟨-, -, -, h⟩⟩ := storeBytes_cases c ea target n k s <;> simp [h]

theorem jumpAbsolute_readReg (c : Config) (v : Int) (s : State) (r : Nat) :
    (jumpAbsolute c v s).readReg r = s.readReg r := by
  obtain ⟨-, -, h⟩ | ⟨-, h⟩ := jumpAbsolute_cases c v s <;> simp [h]

/-- An index that reads differently in two states is a real register's (R21). -/
theorem isReal_of_readReg_ne {s t : State} {r : Nat} (h : t.readReg r ≠ s.readReg r) : IsReal r := by
  by_contra hr
  exact h ((t.readReg_blackHole hr).trans (s.readReg_blackHole hr).symm)

theorem effect_register_changed {i : Instr} {s : State} {r : Nat} (hne : (effect i s).readReg r ≠ s.readReg r) :
    (∃ o, i.operand = .rd o ∧ r = o.dest) ∨ (∃ o, i.operand = .ri o ∧ r = o.dest) ∨
    (i.mnemonic.isLoad = true ∧ ∃ o, i.operand = .bo o ∧ o.target ≤ r ∧ r < o.target + 4) ∨
    (i.mnemonic.isLoad = true ∧ ∃ o, i.operand = .bi o ∧ o.target ≤ r ∧ r < o.target + 4) := by
  cases i with
  | shl q o | shr q o | and q o | or q o | xor q o | not q o | add q o | sub q o | mul q o =>
    exact .inl ⟨o, rfl, aluWriteBack_register_changed hne⟩
  | shli q o | shri q o | andi q o | ori q o | xori q o | noti q o | addi q o | subi q o | muli q o =>
    exact .inr (.inl ⟨o, rfl, aluRi_register_changed hne⟩)
  | ld8 q o | ld16 q o | ld32 q o =>
    exact .inr (.inr (.inl ⟨rfl, o, rfl, loadBytes_register_changed (by decide) hne⟩))
  | ld8x q o | ld16x q o | ld32x q o =>
    exact .inr (.inr (.inr ⟨rfl, o, rfl, loadBytes_register_changed (by decide) hne⟩))
  | st8 | st16 | st32 | st8x | st16x | st32x => exact absurd (storeBytes_readReg ..) hne
  | jmp | int => exact absurd rfl hne
  | jmpr | jmpi => exact absurd (jumpAbsolute_readReg ..) hne

/-! ### Flags and the mark -/

theorem aluRi_flags_changed {c : Config} {op : AluOp} {o : Ri} {s : State} (hne : (aluRi c op o s).flags ≠ s.flags) :
    (aluRi c op o s).run = s.run ∧ (aluRi c op o s).fatal = s.fatal := by
  obtain ⟨-, e⟩ | ⟨-, e⟩ := aluRi_cases c op o s <;> rw [e] at hne ⊢
  · exact ⟨aluWriteBack_run .., aluWriteBack_fatal ..⟩
  · exact absurd rfl hne

/-- An effect that writes a flag is an ALU operation's write-back, which neither halts nor marks (R30, R128). -/
theorem effect_flags_changed {i : Instr} {s : State} (hne : (effect i s).flags ≠ s.flags) :
    (effect i s).run = s.run ∧ (effect i s).fatal = s.fatal ∧
      ((∃ o, i.operand = .rd o) ∨ (∃ o, i.operand = .ri o)) := by
  cases i with
  | shl q o | shr q o | and q o | or q o | xor q o | not q o | add q o | sub q o | mul q o =>
    exact ⟨aluWriteBack_run .., aluWriteBack_fatal .., .inl ⟨o, rfl⟩⟩
  | shli q o | shri q o | andi q o | ori q o | xori q o | noti q o | addi q o | subi q o | muli q o =>
    obtain ⟨hrun, hfatal⟩ := aluRi_flags_changed hne
    exact ⟨hrun, hfatal, .inr ⟨o, rfl⟩⟩
  | ld8 | ld16 | ld32 | ld8x | ld16x | ld32x => exact absurd (loadBytes_flags ..) hne
  | st8 | st16 | st32 | st8x | st16x | st32x => exact absurd (storeBytes_flags ..) hne
  | jmp | int => exact absurd rfl hne
  | jmpr | jmpi => exact absurd (jumpAbsolute_flags ..) hne

theorem loadBytes_fatal (c : Config) (ea : Byte) (target n k : Nat) (s : State) :
    (loadBytes c ea target n k s).fatal = s.fatal := by
  obtain ⟨j, -, -, ⟨-, h⟩ | ⟨-, -, h⟩ | ⟨-, -, -, h⟩⟩ := loadBytes_cases c ea target n k s <;> simp [h]

theorem storeBytes_fatal (c : Config) (ea : Byte) (target n k : Nat) (s : State) :
    (storeBytes c ea target n k s).fatal = s.fatal := by
  obtain ⟨j, -, -, ⟨-, h⟩ | ⟨-, -, h⟩ | ⟨-, -, -, h⟩⟩ := storeBytes_cases c ea target n k s <;> simp [h]

theorem jumpAbsolute_fatal (c : Config) (v : Int) (s : State) : (jumpAbsolute c v s).fatal = s.fatal := by
  obtain ⟨-, -, h⟩ | ⟨-, h⟩ := jumpAbsolute_cases c v s <;> simp [h]

theorem aluRi_fatal_cases (c : Config) (op : AluOp) (o : Ri) (s : State) :
    (aluRi c op o s).fatal = s.fatal ∨ aluRi c op o s = s.raiseFatal .riImmediate := by
  obtain ⟨-, e⟩ | ⟨-, e⟩ := aluRi_cases c op o s
  · exact .inl (by rw [e, aluWriteBack_fatal])
  · exact .inr e

/-- The one effect that marks is a register-immediate operation's, and it writes nothing else (R121, R222). -/
theorem effect_fatal_cases (i : Instr) (s : State) : (effect i s).fatal = s.fatal ∨
    (effect i s = s.raiseFatal .riImmediate ∧ ∃ o, i.operand = .ri o) := by
  cases i with
  | shl | shr | and | or | xor | not | add | sub | mul => exact .inl (aluWriteBack_fatal ..)
  | shli q o | shri q o | andi q o | ori q o | xori q o | noti q o | addi q o | subi q o | muli q o =>
    exact (aluRi_fatal_cases ..).imp_right fun h => ⟨h, o, rfl⟩
  | ld8 | ld16 | ld32 | ld8x | ld16x | ld32x => exact .inl (loadBytes_fatal ..)
  | st8 | st16 | st32 | st8x | st16x | st32x => exact .inl (storeBytes_fatal ..)
  | jmp | int => exact .inl rfl
  | jmpr | jmpi => exact .inl (jumpAbsolute_fatal ..)

/-- A step that marks is a failed fetch or a register-immediate instruction at the pc, and writes no more (R222). -/
theorem step_fatal_cases {s t : State} {r : FatalReason} (h : step s = .next t) (hr : t.fatal = some r) :
    (r = .fetchOutOfRange ∧ s.fetch = none ∧ t = s.raiseFatal r) ∨
    (r = .riImmediate ∧ t = s.raiseFatal r ∧
      ∃ w i o, s.fetch = some w ∧ decode w = .ok i ∧ i.operand = .ri o) := by
  obtain ⟨-, hunmarked⟩ := live_of_step h
  have hkept {u : State} (hu : u.fatal = s.fatal) : u.fatal ≠ some r := by simp [hu, hunmarked]
  obtain ⟨-, ⟨hfetch, rfl⟩ | ⟨w, i, hw, hd, hi⟩ | ⟨w, e, -, -, rfl⟩⟩ := step_cases h
  · cases hr
    exact .inl ⟨rfl, hfetch, rfl⟩
  · obtain ⟨-, rfl⟩ | ⟨-, rfl⟩ := exec_next_cases hi
    · obtain hf | ⟨he, o, ho⟩ := effect_fatal_cases i s
      · exact absurd hr (hkept hf)
      · rw [he] at hr ⊢
        cases hr
        exact .inr ⟨rfl, rfl, w, i, o, hw, hd, ho⟩
    · exact absurd hr (hkept rfl)
  · exact absurd hr (hkept (gated_raiseHalt_fatal ..))

/-- The fetch fails exactly at a pc of 252 or above (R104). -/
theorem fetch_eq_none_iff {s : State} : s.fetch = none ↔ 252 ≤ s.pc.toNat := by
  refine ⟨fun h => Nat.not_lt.1 fun hlt => ?_, fetch_eq_none⟩
  obtain ⟨w, hw⟩ := exists_fetch hlt
  cases h.symm.trans hw

/-! ### Runs -/

/-- The induction over a run: what every step keeps, a run of `n` steps keeps (R112). -/
theorem run_keeps {M : Host.Core} {P : M.State → Prop} (hstep : ∀ s t, P s → M.step s = .next t → P t) {n : Nat}
    {s t : M.State} (h : M.run n s = .next t) (hs : P s) : P t := by
  induction n generalizing s with
  | zero => cases h; exact hs
  | succ n ih =>
    unfold Host.Core.run at h
    split at h
    · next u hu => exact ih h (hstep s u hs hu)
    · cases h
    · cases h

theorem run_keeps_less_clear {n : Nat} {s t : State} (h : Host.Core.run core n s = .next t) (hl : s.flags.l = false) :
    t.flags.l = false :=
  run_keeps (M := core) (P := fun s : State => s.flags.l = false) (fun _ _ hs hstep => (step_flags_l hstep).trans hs) h
    hl

end Sys2Proof.Machine

namespace Sys2Proof
open Machine Claims

/-- Settles O17: a step writes memory by a store's checked bytes alone (`step_mem_keeps`), and no step both halts and
marks (`step_run_of_fatal`). -/
theorem stepKeepsInvariant : Obligations.StepKeepsInvariant := by
  rintro s t ⟨hw, hb, -⟩ hstep
  obtain ⟨hw', hb'⟩ := step_mem_keeps hstep hw hb
  exact ⟨hw', hb', step_run_of_fatal hstep⟩

/-- Settles O18: the BLANK reset lists no byte and is Runnable. -/
theorem resetHasInvariant : Obligations.ResetHasInvariant :=
  ⟨⟨.nil, List.forall_mem_nil _⟩, List.forall_mem_nil _, fun _ => rfl⟩

/-- Settles O15: of the two ways a step can mark (`step_fatal_cases`) one is the fetch that fails. -/
theorem fatalWritesNothing : Obligations.FatalWritesNothing := by
  intro s t r hstep hr
  rw [← fetch_eq_none_iff]
  obtain ⟨rfl, hfetch, rfl⟩ | ⟨rfl, rfl, w, i, o, hw, hd, ho⟩ := step_fatal_cases hstep hr
  · exact ⟨rfl, by simp [hfetch], fun h => by cases h⟩
  · exact ⟨rfl, by simp [hw], fun _ => ⟨w, i, o, fetch_eq_some_iff.1 hw, hd, ho⟩⟩

/-- Settles O21: a flag changes in an ALU operation's write-back alone (`effect_flags_changed`). -/
theorem onlyAluWritesFlags : Obligations.OnlyAluWritesFlags := by
  rintro i s t ⟨hrun, hfatal⟩ hexec hne
  obtain ⟨hg, rfl⟩ | ⟨-, rfl⟩ := exec_next_cases hexec
  · obtain ⟨hrun', hfatal', hoperand⟩ := effect_flags_changed hne
    exact ⟨hg, ⟨hrun'.trans hrun, hfatal'.trans hfatal⟩, hoperand⟩
  · exact absurd rfl hne

/-- Settles O22: a skip writes no register, and an effect those of `effect_register_changed`. -/
theorem onlyAluAndLoadsWriteRegisters : Obligations.OnlyAluAndLoadsWriteRegisters := by
  intro i s t r hexec hne
  obtain ⟨hg, rfl⟩ | ⟨-, rfl⟩ := exec_next_cases hexec
  · exact ⟨hg, isReal_of_readReg_ne hne, effect_register_changed hne⟩
  · exact absurd rfl hne

/-- Settles O23: a skip writes no memory, and an effect that does is a store's (`effect_mem_cases`). -/
theorem onlyStoresWriteMemory : Obligations.OnlyStoresWriteMemory := by
  intro i s t a hexec hne
  obtain ⟨hg, rfl⟩ | ⟨-, rfl⟩ := exec_next_cases hexec
  · obtain hmem | ⟨hstore, hstored⟩ := effect_mem_cases i s
    · exact absurd (congrArg (Memory.readByte params · a) hmem) hne
    · refine ⟨hg, hstore, hstored.imp ?_ ?_⟩ <;> rintro ⟨o, ho, hst⟩ <;> exact ⟨o, ho, hst.addr_of_changed hne⟩
  · exact absurd rfl hne

/-- Settles O20: no step sets L (`step_flags_l`), so after any run a word that requests L is gated off (O9). -/
theorem lessRequestsNeverRun : Obligations.LessRequestsNeverRun := by
  intro n s t u w hl hrun hw hreq hstep
  have hl' : t.flags.l = false := run_keeps_less_clear hrun hl
  have hshut : ¬WordGateOpen w t.flags := by
    rintro ⟨-, hless, -, -⟩
    cases hl'.symm.trans (hless hreq)
  rw [gatedOffOnlyAdvancesPc.2 t w (live_of_step hstep) hw hshut] at hstep
  cases hstep
  rfl

end Sys2Proof
end

/-! ## The pc after an instruction (R26, R199 to R202) -/

section
namespace Sys2Proof.Machine
open Claims

/-- From `s` an operation ended in `t`: it completed with the pc at `p`, or it stopped with the pc unmoved. -/
inductive MovesPc (s : State) (p : Byte) (t : State) : Prop
  | completes (hpc : t.pc = p) (hrun : t.run = s.run) (hfatal : t.fatal = s.fatal)
  | stops (hpc : t.pc = s.pc) (hended : ¬Live t)

theorem MovesPc.pc_of_live {s t : State} {p : Byte} (h : MovesPc s p t) (ht : Live t) : t.pc = p := by
  cases h with
  | completes hpc => exact hpc
  | stops _ hended => exact absurd ht hended

theorem MovesPc.pc_of_not_live {s t : State} {p : Byte} (h : MovesPc s p t) (hs : Live s) (ht : ¬Live t) :
    t.pc = s.pc := by
  cases h with
  | completes _ hrun hfatal => exact absurd ⟨hrun.trans hs.1, hfatal.trans hs.2⟩ ht
  | stops hpc => exact hpc

theorem not_live_raiseHalt (s : State) (c : HaltCause) : ¬Live (s.raiseHalt c) := fun h => by cases h.1

theorem not_live_raiseFatal (s : State) (r : FatalReason) : ¬Live (s.raiseFatal r) := fun h => by cases h.2

theorem movesPc_aluWriteBack (c : Config) (op : AluOp) (dest a b : Nat) (s : State) :
    MovesPc s (s.pc + 4) (aluWriteBack c op dest a b s) :=
  .completes (aluWriteBack_pc ..) (aluWriteBack_run ..) (aluWriteBack_fatal ..)

theorem movesPc_aluRi (c : Config) (op : AluOp) (o : Ri) (s : State) : MovesPc s (s.pc + 4) (aluRi c op o s) := by
  obtain ⟨-, e⟩ | ⟨-, e⟩ := aluRi_cases c op o s <;> rw [e]
  · exact movesPc_aluWriteBack ..
  · exact .stops rfl (not_live_raiseFatal s _)

theorem movesPc_loadBytes (c : Config) (ea : Byte) (target n k : Nat) (s : State) :
    MovesPc s (s.pc + 4) (loadBytes c ea target n k s) := by
  obtain ⟨j, -, -, ⟨-, e⟩ | ⟨-, -, e⟩ | ⟨-, -, -, e⟩⟩ := loadBytes_cases c ea target n k s <;> rw [e]
  · exact .completes (by simp) (by simp) (by simp)
  · exact .stops (by simp) (not_live_raiseHalt _ _)
  · exact .stops (by simp) (not_live_raiseHalt _ _)

theorem movesPc_storeBytes (c : Config) (ea : Byte) (target n k : Nat) (s : State) :
    MovesPc s (s.pc + 4) (storeBytes c ea target n k s) := by
  obtain ⟨j, -, -, ⟨-, e⟩ | ⟨-, -, e⟩ | ⟨-, -, -, e⟩⟩ := storeBytes_cases c ea target n k s <;> rw [e]
  · exact .completes rfl rfl rfl
  · exact .stops rfl (not_live_raiseHalt _ _)
  · exact .stops rfl (not_live_raiseHalt _ _)

theorem movesPc_jumpAbsolute (c : Config) (v : Int) (s : State) :
    MovesPc s (BitVec.ofInt 8 v) (jumpAbsolute c v s) := by
  obtain ⟨-, -, e⟩ | ⟨-, e⟩ := jumpAbsolute_cases c v s <;> rw [e]
  · exact .completes rfl rfl rfl
  · exact .stops rfl (not_live_raiseHalt s _)

/-- Where an instruction leaves the pc when it completes (R26). -/
def pcAfter (s : State) : Instr → Byte
  | .jmp _ o => BitVec.ofInt 8 ((s.pc.toNat : Int) + o.val.val)
  | .jmpr _ o => BitVec.ofInt 8 (s.readReg o.dest).toNat
  | .jmpi _ o => BitVec.ofInt 8 o.val.val
  | _ => s.pc + 4

theorem movesPc_effect (i : Instr) (s : State) : MovesPc s (pcAfter s i) (effect i s) := by
  cases i with
  | shl | shr | and | or | xor | not | add | sub | mul => exact movesPc_aluWriteBack ..
  | shli | shri | andi | ori | xori | noti | addi | subi | muli => exact movesPc_aluRi ..
  | ld8 | ld16 | ld32 | ld8x | ld16x | ld32x => exact movesPc_loadBytes ..
  | st8 | st16 | st32 | st8x | st16x | st32x => exact movesPc_storeBytes ..
  | jmp => exact .completes rfl rfl rfl
  | jmpr | jmpi => exact movesPc_jumpAbsolute ..
  | int => exact .stops rfl (not_live_raiseHalt s _)

/-- An absolute jump that leaves a live state is at its target, below 252 (R199). -/
theorem jumpAbsolute_pc_of_live {v : Int} {s : State} (h : Live (jumpAbsolute params v s)) :
    ((jumpAbsolute params v s).pc.toNat : Int) = v ∧ (jumpAbsolute params v s).pc.toNat < 252 := by
  obtain ⟨hnonneg, hfits, e⟩ | ⟨-, e⟩ := jumpAbsolute_cases params v s <;> rw [e] at h ⊢
  · have hsize : v + 4 ≤ 255 := hfits
    rw [State.setPc_pc, BitVec.toNat_ofInt]
    omega
  · exact absurd h (not_live_raiseHalt s _)

end Sys2Proof.Machine

namespace Sys2Proof
open Machine Claims

/-- Settles O24: an effect completes with the pc of `pcAfter`, or stops with the pc unmoved (`movesPc_effect`). -/
theorem pcFollowsTable : Obligations.PcFollowsTable := by
  intro i s t hlive hexec
  obtain ⟨hg, rfl⟩ | ⟨hg, rfl⟩ := exec_next_cases hexec
  · have hmoves := movesPc_effect i s
    refine ⟨hmoves.pc_of_not_live hlive, fun _ hshut => absurd hg hshut, fun ht _ => ?_⟩
    have hpc := hmoves.pc_of_live ht
    cases i with
    | jmp q o =>
      change ((effect (.jmp q o) s).pc.toNat : Int) = _
      rw [hpc, pcAfter, BitVec.toNat_ofInt]
      omega
    | jmpr q o =>
      have htarget := (jumpAbsolute_pc_of_live ht).1
      exact BitVec.eq_of_toNat_eq (Int.ofNat_inj.1 htarget)
    | jmpi q o => exact (jumpAbsolute_pc_of_live ht).1
    | _ => exact (congrArg BitVec.toNat hpc).trans (BitVec.toNat_add s.pc 4)
  · exact ⟨fun ht => absurd hlive ht, fun _ _ => BitVec.toNat_add s.pc 4, fun _ hopen => absurd hopen hg⟩

/-- Settles O46: a live result of either absolute jump has its pc below 252 (`jumpAbsolute_pc_of_live`), where a word
can be fetched. -/
theorem absoluteJumpTargetIsFetchable : Obligations.AbsoluteJumpTargetIsFetchable := by
  intro i s t hm hg _ hexec ht
  obtain ⟨-, rfl⟩ | ⟨hshut, -⟩ := exec_next_cases hexec
  · cases i with
    | jmpr q o => exact exists_fetch (jumpAbsolute_pc_of_live ht).2
    | jmpi q o => exact exists_fetch (jumpAbsolute_pc_of_live ht).2
    | _ => obtain h | h := hm <;> cases h
  · exact absurd hg hshut

end Sys2Proof
end

/-! ## The run state is not read (R34) -/

section
namespace Sys2Proof.Machine

/-- Two states alike in everything but the run state. -/
def AlikeButRun (s t : State) : Prop := ∃ x, t = { s with run := x }

theorem alikeButRun_raiseHalt (s : State) (x : RunState) (c : HaltCause) :
    AlikeButRun (s.raiseHalt c) (State.raiseHalt { s with run := x } c) := ⟨_, rfl⟩

theorem writeReg_run_update (s : State) (x : RunState) (r : Nat) (v : Byte) :
    State.writeReg { s with run := x } r v = { s.writeReg r v with run := x } := by
  unfold State.writeReg
  split <;> rfl

theorem alikeButRun_aluWriteBack (c : Config) (op : AluOp) (dest a b : Nat) (s : State) (x : RunState) :
    AlikeButRun (aluWriteBack c op dest a b s) (aluWriteBack c op dest a b { s with run := x }) :=
  ⟨x, by rw [aluWriteBack, writeReg_run_update]; rfl⟩

theorem alikeButRun_aluRi (c : Config) (op : AluOp) (o : Ri) (s : State) (x : RunState) :
    AlikeButRun (aluRi c op o s) (aluRi c op o { s with run := x }) := by
  have hread : State.readReg { s with run := x } o.x = s.readReg o.x := rfl
  unfold aluRi
  rw [hread]
  split
  · exact alikeButRun_aluWriteBack ..
  · exact ⟨x, rfl⟩

theorem alikeButRun_loadBytes (c : Config) (ea : Byte) (target n k : Nat) (s : State) (x : RunState) :
    AlikeButRun (loadBytes c ea target n k s) (loadBytes c ea target n k { s with run := x }) := by
  induction n generalizing k s with
  | zero => exact ⟨x, rfl⟩
  | succ n ih =>
    unfold loadBytes
    split
    · exact alikeButRun_raiseHalt s x _
    · cases s.mem.readByte c (byteAddr ea.toNat k) with
      | none => exact alikeButRun_raiseHalt s x _
      | some v =>
        simp only [writeReg_run_update]
        exact ih ..

theorem alikeButRun_storeBytes (c : Config) (ea : Byte) (target n k : Nat) (s : State) (x : RunState) :
    AlikeButRun (storeBytes c ea target n k s) (storeBytes c ea target n k { s with run := x }) := by
  induction n generalizing k s with
  | zero => exact ⟨x, rfl⟩
  | succ n ih =>
    have hread : State.readReg { s with run := x } (target + k) = s.readReg (target + k) := rfl
    unfold storeBytes
    rw [hread]
    split
    · exact alikeButRun_raiseHalt s x _
    · cases s.mem.writeByte c (byteAddr ea.toNat k) (s.readReg (target + k)) with
      | none => exact alikeButRun_raiseHalt s x _
      | some m => exact ih (k + 1) (s.setMem m)

theorem alikeButRun_jumpAbsolute (c : Config) (v : Int) (s : State) (x : RunState) :
    AlikeButRun (jumpAbsolute c v s) (jumpAbsolute c v { s with run := x }) := by
  unfold jumpAbsolute
  split
  · exact ⟨x, rfl⟩
  · exact alikeButRun_raiseHalt s x _

theorem alikeButRun_effect (i : Instr) (s : State) (x : RunState) :
    AlikeButRun (effect i s) (effect i { s with run := x }) := by
  cases i with
  | shl | shr | and | or | xor | not | add | sub | mul => exact alikeButRun_aluWriteBack ..
  | shli | shri | andi | ori | xori | noti | addi | subi | muli => exact alikeButRun_aluRi ..
  | ld8 | ld16 | ld32 | ld8x | ld16x | ld32x => exact alikeButRun_loadBytes ..
  | st8 | st16 | st32 | st8x | st16x | st32x => exact alikeButRun_storeBytes ..
  | jmp => exact ⟨x, rfl⟩
  | jmpr | jmpi => exact alikeButRun_jumpAbsolute ..
  | int => exact alikeButRun_raiseHalt s x _

/-- The gate reads the flags alone (R100). -/
theorem alikeButRun_gated {q : Req} {s t t' : State} {x : RunState} (h : AlikeButRun t t') :
    AlikeButRun (gated q s t) (gated q { s with run := x } t') := by
  unfold gated
  split
  · exact h
  · exact ⟨x, rfl⟩

end Sys2Proof.Machine

namespace Sys2Proof
open Machine

/-- Settles O25: the gate and each shared operation take states alike but for the run state to such states
(`alikeButRun_effect`). -/
theorem haltCauseIsNotRead : Obligations.HaltCauseIsNotRead := by
  intro i s x
  obtain ⟨r, hr⟩ := alikeButRun_gated (q := i.req) (s := s) (x := x) (alikeButRun_effect i s x)
  exact ⟨_, _, exec_eq i s, (exec_eq i { s with run := x }).trans (congrArg _ hr), rfl, rfl, rfl, rfl, rfl⟩

end Sys2Proof
end

/-! ## Stored words, seen by a load, by the host and by the fetch (R56, R66) -/

section
namespace Sys2Proof.Machine
open Claims

/-- The word four registers hold, the lowest register least significant (R56). -/
def regWord (s : State) (target : Nat) : Word :=
  wordOfBytes (s.readReg target) (s.readReg (target + 1)) (s.readReg (target + 2)) (s.readReg (target + 3))

theorem toNat_regWord (s : State) (target : Nat) : (regWord s target).toNat = regNumber s target :=
  toNat_wordOfBytes ..

theorem byteOfWord_regWord (s : State) (target : Nat) {k : Nat} (hk : k < 4) :
    byteOfWord (regWord s target) k = s.readReg (target + k) := by
  obtain ⟨h0, h1, h2, h3⟩ := byteOfWord_wordOfBytes (s.readReg target) (s.readReg (target + 1)) (s.readReg (target + 2))
    (s.readReg (target + 3))
  interval_cases k
  · exact h0
  · exact h1
  · exact h2
  · exact h3

/-- After a 4-byte store the word at its address is the registers' (R54, R56). -/
theorem readWord_of_storedBytes {target : Nat} {ea : Byte} {s t : State} (h : StoredBytes 4 target ea s t) :
    t.mem.readWord params ea.toNat = some (regWord s target) :=
  Memory.readWord_eq_some_iff_bytes.2 fun k hk => by
    rw [byteOfWord_regWord s target hk]
    exact h.stored k hk

theorem exec_st32_completes {q : Req} {o : Bo} {s : State} (hg : GateOpen q s.flags)
    (hok : ∀ k < 4, ByteOk o.target (s.eaBo o) k) : ∃ t, exec (.st32 q o) s = .next t ∧
      StoredBytes 4 o.target (s.eaBo o) s t ∧ t.pc = s.pc + 4 ∧ t.run = s.run :=
  ⟨_, exec_open (i := .st32 q o) (gate_eq_true.2 hg),
    (storeBytes_ends (n := 4) (by decide) o.target (s.eaBo o) s).complete hok⟩

theorem exec_ld32_completes {q : Req} {o : Bo} {s : State} (hg : GateOpen q s.flags)
    (hok : ∀ k < 4, ByteOk o.target (s.eaBo o) k) : ∃ t, exec (.ld32 q o) s = .next t ∧
      LoadedBytes 4 o.target (s.eaBo o) s t :=
  ⟨_, exec_open (i := .ld32 q o) (gate_eq_true.2 hg), ((loadBytes_ends 4 o.target (s.eaBo o) s).complete hok).1⟩

/-- An effective address reads registers alone (R170). -/
theorem eaBo_congr {s t : State} (h : SameRegisters s t) (o : Bo) : t.eaBo o = s.eaBo o := by
  rw [State.eaBo, h, State.eaBo]

end Sys2Proof.Machine

namespace Sys2Proof
open Machine Claims

/-- Settles O37: the completed store leaves the registers' word at its address (`readWord_of_storedBytes`). -/
theorem storeThenHostReadsNumber : Obligations.StoreThenHostReadsNumber := by
  intro q o s hg hok
  obtain ⟨t, hexec, hstored, -, -⟩ := exec_st32_completes hg hok
  exact ⟨t, _, hexec, readWord_of_storedBytes hstored, toNat_regWord s o.target⟩

/-- Settles O38: the store moves no register and no flag, so the load passes its gate, has the same effective address
and reads the stored bytes. -/
theorem storeLoadRoundTrip : Obligations.StoreLoadRoundTrip := by
  intro q q' o o' s hg hg' hea hok hok'
  obtain ⟨t, hstore, hstored, -, -⟩ := exec_st32_completes hg hok
  have heaLoad : t.eaBo o' = s.eaBo o := (eaBo_congr hstored.registers o').trans hea
  obtain ⟨u, hload, hloaded⟩ := exec_ld32_completes (q := q') (s := t) (o := o') (by rwa [hstored.flags])
    (by rwa [heaLoad])
  rw [heaLoad] at hloaded
  refine ⟨t, u, hstore, hload, fun k hk hreal => ?_⟩
  exact Option.some.inj ((hloaded.loaded k hk hreal).trans (hstored.stored k hk))

/-- Settles O39: the completed store leaves the pc at its own effective address, where the fetch reads its word. -/
theorem storeIsSeenByNextFetch : Obligations.StoreIsSeenByNextFetch := by
  rintro q o s ⟨hrunnable, hunmarked⟩ hg hea hok
  obtain ⟨t, hexec, hstored, hpc, hrun⟩ := exec_st32_completes hg hok
  refine ⟨t, _, hexec, ⟨hrun.trans hrunnable, hstored.fatal.trans hunmarked⟩, ?_, toNat_regWord s o.target⟩
  rw [State.fetch, hpc, ← hea]
  exact readWord_of_storedBytes hstored

end Sys2Proof
end

/-! ## The step on given bytes, the placed word, and `set_pc` (R43, R103, R253) -/

section
namespace Sys2Proof.Machine
open Claims

theorem decode_of_decodeBytes {b0 b1 b2 b3 : Byte} {rest rest' : List Byte} {i : Instr}
    (h : decodeBytes (b0 :: b1 :: b2 :: b3 :: rest) = .ok (i, rest')) : decode (wordOfBytes b0 b1 b2 b3) = .ok i := by
  simp only [decodeBytes] at h
  split at h
  · next hd => cases h; exact hd
  · cases h

theorem runWord_of_ok {s : State} {w : Word} {i : Instr} (h : decode w = .ok i) : runWord w s = exec i s := by
  rw [runWord, h]

/-- The pc that the placing of a word leaves is one a fetch succeeds at: the entry pc stands in for any other. -/
theorem placeWord_pc_lt (s : State) (w : Word) : (placeWord s w).pc.toNat < 252 := by
  simp only [placeWord]
  split_ifs with h
  · exact Nat.lt_of_add_lt_add_right (Nat.lt_succ_of_le h)
  · decide

theorem placeWord_pc_of_lt {s : State} (h : s.pc.toNat < 252) (w : Word) : (placeWord s w).pc = s.pc :=
  if_pos (show s.pc.toNat + 4 ≤ 255 by omega)

theorem placeWord_mem (s : State) (w : Word) :
    (placeWord s w).mem = (s.mem.writeWord params (placeWord s w).pc.toNat w).getD s.mem := rfl

theorem placeWord_fetch (s : State) (w : Word) : (placeWord s w).fetch = some w := by
  obtain ⟨m, hm, -, -⟩ := Memory.writeWord_of_lt params s.mem (placeWord s w).pc.toNat w
    ((byteAddr_lt_memSize _).2 (placeWord_pc_lt s w))
  rw [State.fetch, placeWord_mem, hm]
  exact Memory.readWord_of_writeWord hm

theorem withFetchWord_toNat (s : State) (w : Word) : s.withFetchWord 32 w.toNat = placeWord s w := by
  rw [State.withFetchWord, Nat.mod_eq_of_lt w.isLt, BitVec.ofNat_toNat, BitVec.setWidth_eq]

/-- `set_pc` is refused exactly when a step has been taken (R43). -/
theorem Session.setPc_isNone_iff (h : Session) (a : Byte) : (h.setPc a).isNone = true ↔ h.stepped = true := by
  unfold Session.setPc
  cases h.stepped <;> simp

theorem Session.stepped_of_clock {h h' : Session} (hc : h.clock = some h') : h'.stepped = true := by
  obtain ⟨p, s, hx, -⟩ | ⟨a, hx, -⟩ | ⟨s, -, -, rfl⟩ := Session.call_cases (x := .clock) hc
  · cases hx
  · cases hx
  · rfl

/-- No port but the clock takes a step. -/
theorem Session.stepped_of_edit {h h' : Session} {port : Port} (he : h.edit port = some h') :
    h'.stepped = h.stepped := by
  obtain ⟨s, -, rfl⟩ := Option.map_eq_some_iff.1 he
  rfl

end Sys2Proof.Machine

namespace Sys2Proof
open Machine Claims

/-- Settles O10: the word of the four bytes is the one fetched, and it decodes as the bytes do. -/
theorem stepRunsDecodedInstruction : Obligations.StepRunsDecodedInstruction := by
  intro s b0 b1 b2 b3 rest i hlive h0 h1 h2 h3 hdecode
  have hfetch : s.fetch = some (wordOfBytes b0 b1 b2 b3) := by
    simp only [State.fetch, Memory.readWord, byteAddr, Nat.add_zero, h0, h1, h2, h3]
    rfl
  rw [step_of_fetchesWord hlive (fetch_eq_some_iff.1 hfetch), runWord_of_ok (decode_of_decodeBytes hdecode)]

/-- Settles O54: the word is written at a pc in range (`placeWord_pc_lt`), so the fetch there reads it back. -/
theorem placedWordIsFetchedNext : Obligations.PlacedWordIsFetchedNext := by
  intro s w
  rw [withFetchWord_toNat]
  exact ⟨⟨rfl, rfl⟩, placeWord_fetch s w, rfl, rfl, fun h => placeWord_pc_of_lt h w⟩

/-- Settles O53: a launch has taken no step, a clock call takes one, and the other ports take none. -/
theorem setPcOnlyBeforeFirstStep : Obligations.SetPcOnlyBeforeFirstStep := by
  refine ⟨fun _ _ _ => rfl, fun _ _ => rfl, fun h h' a hc => ?_, fun h h' port a he => ?_⟩
  · exact Option.isNone_iff_eq_none.1 ((h'.setPc_isNone_iff a).2 (Session.stepped_of_clock hc))
  · rw [Session.setPc_isNone_iff, Session.setPc_isNone_iff, Session.stepped_of_edit he]

end Sys2Proof
end
